-- ==== Sys2Proof/Word.lean ====
section
/-! DEFINITION. The one word of the block: the 8-bit cell or stream code (spec/00_scope.md R8, R9). -/

namespace Sys2Proof

/-- An 8-bit code: what a cell of the buffer holds (spec/30_encoding.md R60) and what one element of a print
stream is (R63). Bit 0 is the least significant bit (spec/00_scope.md R9). -/
abbrev Byte := BitVec 8

end Sys2Proof
end

