-- ==== Sys2Proof/Config.lean ====
section
/-! DEFINITION. What an instance is built with: the geometry, a parameter (spec/00_scope.md R7), and the constants
that do not depend on it (R8). The spec leaves no value open, so there is no free value here. -/

namespace Sys2Proof

/-- The two parameters of an instance, fixed for its lifetime (spec/00_scope.md R7, spec/10_state.md R27). -/
structure Geometry where
  /-- `LINE_WIDTH`, the number of columns of a row. -/
  lineWidth : Nat
  /-- `LINE_COUNT`, the number of rows. -/
  lineCount : Nat
  deriving DecidableEq, Repr

/-- Construction requires both dimensions to be at least 1 (spec/70_reset_and_hazards.md R181). -/
abbrev Geometry.Valid (g : Geometry) : Prop := 1 ≤ g.lineWidth ∧ 1 ≤ g.lineCount

/-- `CHARS_LEN`, the number of cells (spec/00_scope.md R8). -/
def Geometry.charsLen (g : Geometry) : Nat := g.lineWidth * g.lineCount

/-- `PIX_W`, the number of pixel columns (spec/00_scope.md R8). -/
def Geometry.pixW (g : Geometry) : Nat := 2 * g.lineWidth

/-- `PIX_H`, the number of pixel rows (spec/00_scope.md R8). -/
def Geometry.pixH (g : Geometry) : Nat := 3 * g.lineCount

/-- The reference configuration, 64 columns by 16 rows (spec/00_scope.md R7, where it is marked as general
knowledge). PRESUMED, unsafe: log 1. Only `State.reset` uses it. -/
def Config.referenceGeometry : Geometry := { lineWidth := 64, lineCount := 16 }

/-- `VIDEO_BASE` (spec/00_scope.md R8). -/
def Config.videoBase : Int := 15360

/-- `BLANK`, the code of an empty cell (spec/00_scope.md R8). -/
def Config.blank : Byte := 32#8

/-- `GFX_BASE`, the graphics code with every sub-pixel off (spec/00_scope.md R8, spec/30_encoding.md R62). -/
def Config.gfxBase : Byte := 0x80#8

/-- `TAB_BASE`, the stream code of a tab to column 0 (spec/00_scope.md R8). -/
def Config.tabBase : Nat := 191

/-- `TAB_ARG_LIMIT`: `TAB(n)` takes `0 <= n < 64` whatever the width is (spec/00_scope.md R8, spec/90_conflicts.md C6). -/
def Config.tabArgLimit : Nat := 64

end Sys2Proof
end

