-- ==== Sys2Proof/Syntax.lean ====
section
/-! DEFINITION. The instructions: the 13 actions a stream code can stand for (spec/30_encoding.md R64) and the 11 host
commands (R70). A constructor stands for each mnemonic of spec/opcode_table.json; the table's 2 rows of TABC and
14 rows of GLYPH are bit patterns of one instruction each (log 5). -/

namespace Sys2Proof

/-- What one stream code decodes to (spec/30_encoding.md R63, R64). -/
inductive StreamOp where
  | bs
  | lf
  | cr
  | left
  | right
  | down
  | up
  | home
  | sol
  | eol
  | eos
  /-- Tab to column `t`, the code less 191 (spec/30_encoding.md R65). -/
  | tabc (t : Nat)
  /-- Write the code itself (spec/30_encoding.md R66). -/
  | glyph (c : Byte)
  deriving DecidableEq, Repr

/-- The instructions of spec/opcode_table.json. The first 13 are the stream actions, which a host issues inside a
print stream; the other 11 are the complete host command set (spec/30_encoding.md R70). Positions, coordinates,
addresses and tab arguments are unbounded integers and codes are 8 bits (R71; log 15, log 16). -/
inductive Instr where
  | bs
  | lf
  | cr
  | left
  | right
  | down
  | up
  | home
  | sol
  | eol
  | eos
  | tabc (t : Nat)
  | glyph (c : Byte)
  | cls
  | print (codes : List Byte)
  | printAt (pos : Int) (codes : List Byte)
  | tab (n : Int)
  | set (x y : Int)
  | reset (x y : Int)
  | point (x y : Int)
  | peek (addr : Int)
  | poke (addr : Int) (val : Byte)
  | bufGet (pos : Int)
  | bufSet (pos : Int) (code : Byte)
  deriving DecidableEq, Repr

/-- The instruction a decoded stream code is. -/
def StreamOp.toInstr : StreamOp → Instr
  | .bs => .bs
  | .lf => .lf
  | .cr => .cr
  | .left => .left
  | .right => .right
  | .down => .down
  | .up => .up
  | .home => .home
  | .sol => .sol
  | .eol => .eol
  | .eos => .eos
  | .tabc t => .tabc t
  | .glyph c => .glyph c

/-- Whether the instruction is one of the host commands of spec/30_encoding.md R70. -/
def Instr.isCommand : Instr → Bool
  | .bs => false
  | .lf => false
  | .cr => false
  | .left => false
  | .right => false
  | .down => false
  | .up => false
  | .home => false
  | .sol => false
  | .eol => false
  | .eos => false
  | .tabc _ => false
  | .glyph _ => false
  | .cls => true
  | .print _ => true
  | .printAt _ _ => true
  | .tab _ => true
  | .set _ _ => true
  | .reset _ _ => true
  | .point _ _ => true
  | .peek _ => true
  | .poke _ _ => true
  | .bufGet _ => true
  | .bufSet _ _ => true

end Sys2Proof
end

