-- ==== Sys2Proof/Machine/State.lean ====
section
/-! DEFINITION. The state of one instance as plain data: the four pieces the spec gives it (spec/10_state.md R20), its
fixed configuration (R27) and two fields of the model's own, the host's pending commands (log 2) and the last reply to
the host (log 3). The reasons a step can stop, and the state after construction. -/

namespace Sys2Proof.Machine

/-- A store of cells: pairs of a cell index and a code in one canonical form, the indices strictly rising and no pair
holding the code that an unlisted cell reads as (log 17). -/
abbrev Memory := List Host.Cell

/-- What a cell that is not listed reads as: the construction value of every cell (spec/70_reset_and_hazards.md
R180). -/
def Memory.unlisted : Byte := Config.blank

/-- The canonical form: indices strictly rising, no listed cell at the unlisted value. -/
abbrev Memory.wf (m : Memory) : Prop :=
  m.Pairwise (fun a b => a.1 < b.1) ∧ ∀ c ∈ m, c.2 ≠ Memory.unlisted

/-- Every listed cell has an index below `n`. -/
abbrev Memory.within (n : Nat) (m : Memory) : Prop := ∀ c ∈ m, c.1 < n

/-- A fault record `OutOfRange(cmd, operands)`: the raising command and its range-checked operands
(spec/60_exceptions.md R163). -/
inductive OutOfRange where
  | bufGet (pos : Int)
  | bufSet (pos : Int)
  | printAt (pos : Int)
  | tab (n : Int)
  | set (x y : Int)
  | reset (x y : Int)
  | point (x y : Int)
  deriving DecidableEq, Repr

/-- A notification to the Renderer (spec/10_state.md R26). -/
inductive Event where
  /-- Cell `pos` changed from `old` to `new`. -/
  | cellChanged (pos : Nat) (old new : Byte)
  /-- All rows moved up by one and the bottom row was blanked. -/
  | scroll
  /-- Every cell was blanked. -/
  | clear
  deriving DecidableEq, Repr

/-- What a command hands back to the host (spec/30_encoding.md R70, column "result"; spec/60_exceptions.md R166). -/
inductive Reply where
  /-- The command returned and has no result. -/
  | done
  /-- An 8-bit code: PEEK, BUF_GET, TAB. -/
  | code (c : Byte)
  /-- A boolean: POINT. -/
  | truth (b : Bool)
  /-- A faulted outcome in place of a normal return. -/
  | outOfRange (r : OutOfRange)
  deriving DecidableEq, Repr

/-- The reasons the machine itself can stop. There is none: the block's one exception, OutOfRange, latches a record and
leaves the block in a next state (spec/60_exceptions.md R160, R161, R166; log 6), and no other failure mode exists. -/
inductive Fault where
  deriving DecidableEq, Repr

/-- Why a command has no step. -/
inductive Refusal where
  /-- Raised by `exec` for an instruction without a meaning. No arm raises it. Safe. -/
  | notModelled (mnemonic : String)
  /-- Raised by every instruction while the fault latch holds a record: the block accepts no command
  (spec/60_exceptions.md R164; log 7). Safe. -/
  | blockFaulted
  /-- Raised by `step` for a pending term that is no instruction: a GLYPH with a control code or a TABC with a target
  column above 64, which no code decodes to (spec/30_encoding.md R64; log 19). Safe. -/
  | illFormed
  /-- Raised by construction with a dimension below 1 (spec/70_reset_and_hazards.md R181; log 18). Safe. -/
  | badGeometry
  deriving DecidableEq, Repr

/-- The state of one instance. -/
structure State where
  /-- The parameters the instance was constructed with (spec/10_state.md R27; log 1). No step changes them. -/
  geom : Geometry
  /-- The character buffer, keyed by cell index (spec/10_state.md R22; log 17). -/
  buf : Memory
  /-- The cursor register (spec/10_state.md R23). -/
  cursor : Nat
  /-- The fault latch (spec/10_state.md R24). -/
  fault : Option OutOfRange
  /-- The notifications sent to the Renderer, oldest first (spec/10_state.md R26). -/
  events : List Event
  /-- The MODEL's own field: the commands the host will issue next, in order (log 2). -/
  pending : List Instr
  /-- The MODEL's own field: what the last command handed back to the host (log 3). -/
  reply : Option Reply
  deriving DecidableEq, Repr

/-- The outcome of an instruction or of a step. -/
abbrev Exec := Host.Outcome State Fault Refusal

/-- The construction state of an instance with geometry `g` (spec/70_reset_and_hazards.md R180): every cell blank, cursor
0, no fault, no notification. DESIGN CHOICE for the model's own fields: no command pending (log 2), no reply (log 3). -/
def State.fresh (g : Geometry) : State :=
  { geom := g, buf := [], cursor := 0, fault := none, events := [], pending := [], reply := none }

/-- Constructing an instance; refused when a dimension is below 1 (spec/70_reset_and_hazards.md R181). -/
def State.construct (g : Geometry) : Exec :=
  if g.Valid then .next (State.fresh g) else .refused .badGeometry

/-- The machine right after reset: the construction state at the reference geometry. PRESUMED, unsafe: the spec leaves the
geometry a parameter and marks the reference configuration as general knowledge (log 1). -/
def State.reset : State := State.fresh Config.referenceGeometry

/-- `s` with another buffer. -/
def State.withBuf (s : State) (m : Memory) : State := { s with buf := m }

/-- `s` with another cursor. -/
def State.withCursor (s : State) (c : Nat) : State := { s with cursor := c }

/-- `s` with a fault record latched. -/
def State.withFault (s : State) (r : OutOfRange) : State := { s with fault := some r }

/-- `s` with one more notification sent. -/
def State.withEvent (s : State) (e : Event) : State := { s with events := s.events ++ [e] }

/-- `s` with other commands pending. -/
def State.withPending (s : State) (p : List Instr) : State := { s with pending := p }

/-- `s` with a reply handed to the host. -/
def State.withReply (s : State) (r : Reply) : State := { s with reply := some r }

end Sys2Proof.Machine
end

