-- ==== Sys2Proof/Machine/Flags.lean ====
section
/-! DEFINITION. The block's only flag, the graphics-mode bit of a cell code (spec/10_state.md R25), and the sub-pixel bits
of a graphics cell (spec/30_encoding.md R62). -/

namespace Sys2Proof.Machine

/-- A cell is in graphics mode exactly when bit 7 of its code is set (spec/10_state.md R25). -/
def graphicsMode (c : Byte) : Bool := c.getLsbD 7

/-- `1 << bit`. -/
def bitMask (bit : Nat) : Byte := 1#8 <<< bit

/-- The code a pixel operation starts from: the cell's own in graphics mode, else `GFX_BASE`, which erases the glyph
(spec/42_semigraphics.md R130, R131). -/
def graphicsBase (old : Byte) : Byte := if graphicsMode old then old else Config.gfxBase

/-- The code with one sub-pixel on (spec/42_semigraphics.md R130). -/
def pixelOn (old : Byte) (bit : Nat) : Byte := graphicsBase old ||| bitMask bit

/-- The code with one sub-pixel off (spec/42_semigraphics.md R131). -/
def pixelOff (old : Byte) (bit : Nat) : Byte := graphicsBase old &&& ~~~ (bitMask bit)

/-- Whether a sub-pixel shows: false for a glyph cell, else the bit (spec/42_semigraphics.md R132). -/
def pixelLit (v : Byte) (bit : Nat) : Bool := graphicsMode v && v.getLsbD bit

end Sys2Proof.Machine
end

