-- ==== Sys2Proof/Machine/Operands.lean ====
section
/-! DEFINITION. The operand forms: the three index spaces and their range checks (spec/20_memory.md R40), the window and
pixel translations (R41, R43) and the derived cursor quantities (spec/00_scope.md R11). -/

namespace Sys2Proof.Machine

/-- `row(c) = c div LINE_WIDTH` (spec/00_scope.md R11). -/
def rowOf (g : Geometry) (c : Nat) : Nat := c / g.lineWidth

/-- `col(c) = c mod LINE_WIDTH` (spec/00_scope.md R11). -/
def colOf (g : Geometry) (c : Nat) : Nat := c % g.lineWidth

/-- The first cell of row `r` (spec/00_scope.md R11). -/
def rowStart (g : Geometry) (r : Nat) : Nat := r * g.lineWidth

/-- `LAST_ROW_START = (LINE_COUNT - 1) * LINE_WIDTH` (spec/00_scope.md R11). -/
def lastRowStart (g : Geometry) : Nat := (g.lineCount - 1) * g.lineWidth

/-- `(a - 1) mod n`, the non-negative remainder of spec/00_scope.md R9, for `n > 0`: `(0 - 1) mod 4 = 3`. -/
def predMod (a n : Nat) : Nat := (a + (n - 1)) % n

/-- `(a + 1) mod n`. -/
def succMod (a n : Nat) : Nat := (a + 1) % n

/-- A buffer position is valid in `[0, CHARS_LEN)` (spec/60_exceptions.md R162). -/
abbrev inBufRange (g : Geometry) (pos : Int) : Prop := 0 ≤ pos ∧ pos < g.charsLen

/-- A cursor is in range in `[0, CHARS_LEN)`: the range every stream action, PRINT and PRINT_AT leave it in
(spec/41_cursor_fsm.md R108, spec/10_state.md R23). -/
abbrev inCursorRange (g : Geometry) (c : Nat) : Prop := c < g.charsLen

/-- A pixel coordinate is valid in `[0, 2*LINE_WIDTH) × [0, 3*LINE_COUNT)` (spec/60_exceptions.md R162). -/
abbrev inPixelRange (g : Geometry) (x y : Int) : Prop :=
  (0 ≤ x ∧ x < g.pixW) ∧ (0 ≤ y ∧ y < g.pixH)

/-- A tab argument is valid in `[0, 64)` (spec/60_exceptions.md R162). -/
abbrev inTabRange (n : Int) : Prop := 0 ≤ n ∧ n < Config.tabArgLimit

/-- `Translate(addr)`: a video address to a cell index, or to nothing (spec/20_memory.md R41). -/
def translateAddr (g : Geometry) (addr : Int) : Option Nat :=
  if Config.videoBase ≤ addr ∧ addr < Config.videoBase + g.charsLen then some (addr - Config.videoBase).toNat
  else none

/-- The cell a valid pixel coordinate lies in (spec/20_memory.md R43). -/
def pixelCell (g : Geometry) (x y : Int) : Nat := (y.toNat / 3) * g.lineWidth + x.toNat / 2

/-- The bit of that cell: exactly `2 * (y mod 3) + (x mod 2)` (spec/20_memory.md R43, spec/42_semigraphics.md R134). -/
def pixelBit (x y : Int) : Nat := 2 * (y.toNat % 3) + x.toNat % 2

/-- The code TAB returns for a valid argument, `191 + n` (spec/41_cursor_fsm.md R92). -/
def tabCode (n : Int) : Byte := BitVec.ofNat 8 (Config.tabBase + n.toNat)

end Sys2Proof.Machine
end

