-- ==== Sys2Proof/WellFormed.lean ====
section
/-! DEFINITION. Which terms of `Instr` stand for an instruction of the spec. Every operand of a host command is valid
to present (spec/30_encoding.md R71), so only the two stream actions with an operand are checked. -/

namespace Sys2Proof

/-- The single-code control codes: 8, 10, 13 and 24..31 (spec/30_encoding.md R64). -/
def isControlCode (c : Byte) : Bool :=
  c = 8#8 || c = 10#8 || c = 13#8 || (24#8 ≤ c && c ≤ 31#8)

/-- The TABC codes: 191..255 (spec/30_encoding.md R64). -/
def isTabCode (c : Byte) : Bool := 191#8 ≤ c

/-- A TABC target column is 0..64 (spec/30_encoding.md R65); a GLYPH operand is a code that is no control code and no
TABC code (R64, R66). -/
def Instr.wellFormed : Instr → Bool
  | .bs => true
  | .lf => true
  | .cr => true
  | .left => true
  | .right => true
  | .down => true
  | .up => true
  | .home => true
  | .sol => true
  | .eol => true
  | .eos => true
  | .tabc t => decide (t ≤ 64)
  | .glyph c => !isControlCode c && !isTabCode c
  | .cls => true
  | .print _ => true
  | .printAt _ _ => true
  | .tab _ => true
  | .set _ _ => true
  | .reset _ _ => true
  | .point _ _ => true
  | .peek _ => true
  | .poke _ _ => true
  | .bufGet _ => true
  | .bufSet _ _ => true

end Sys2Proof
end

