-- ==== Sys2Proof/Machine/Ops.lean ====
section
/-! DEFINITION. The shared operations: reading and writing a cell, the update primitive, blanking, scrolling, raising
OutOfRange, completing a command, and taking the next command from the host's port. -/

namespace Sys2Proof.Machine

/-- The code of cell `k`. -/
def Memory.read : Memory → Nat → Byte
  | [], _ => Memory.unlisted
  | (a, v) :: m, k => if a = k then v else Memory.read m k

/-- The store without cell `k` listed. -/
def Memory.erase (m : Memory) (k : Nat) : Memory := m.filter fun c => c.1 ≠ k

/-- List a cell at its place in the rising order. -/
def Memory.insert : Memory → Nat → Byte → Memory
  | [], k, v => [(k, v)]
  | (a, w) :: m, k, v => if k < a then (k, v) :: (a, w) :: m else (a, w) :: Memory.insert m k v

/-- Cell `k` becomes `v`. Writing the value of an unlisted cell takes the entry away. -/
def Memory.write (m : Memory) (k : Nat) (v : Byte) : Memory :=
  if v = Memory.unlisted then m.erase k else (m.erase k).insert k v

/-- Every row up by one, the bottom row blank: cell `i` becomes the old cell `i + LINE_WIDTH`, and the cells of the last
row become unlisted (spec/41_cursor_fsm.md R112). -/
def Memory.scrolled (m : Memory) (g : Geometry) : Memory :=
  m.filterMap fun c => if g.lineWidth ≤ c.1 ∧ c.1 < g.charsLen then some (c.1 - g.lineWidth, c.2) else none

/-- `buf[i]` (spec/00_scope.md R10). -/
def readCell (s : State) (i : Nat) : Byte := s.buf.read i

/-- `emit(E)` (spec/00_scope.md R10). -/
def emit (e : Event) (s : State) : State := s.withEvent e

/-- `Update(i, v)`, the one primitive through which every cell-granular mutation goes (spec/40_character_buffer.md
R80). -/
def update (i : Nat) (v : Byte) (s : State) : State :=
  if readCell s i = v then s
  else emit (.cellChanged i (readCell s i) v) (s.withBuf (s.buf.write i v))

/-- Blank `n` cells from cell `a` upwards. -/
def blankFrom : Nat → Nat → State → State
  | _, 0, s => s
  | a, n + 1, s => blankFrom (a + 1) n (update a Config.blank s)

/-- `BlankRange(a, b)`: blank cells `a` to `b - 1` in ascending order (spec/40_character_buffer.md R83; log 10). -/
def blankRange (a b : Nat) (s : State) : State := blankFrom a (b - a) s

/-- `Scroll()`: the cells move directly, without `Update`, and one `Scroll` notification is sent even when no cell changes
(spec/41_cursor_fsm.md R112; log 9). The cursor is the callers'. -/
def scroll (s : State) : State := emit .scroll (s.withBuf (s.buf.scrolled s.geom))

/-- Clearing: every cell becomes BLANK directly, the cursor 0, and one `Clear` is sent (spec/44_control.md R150; log 9). -/
def clearScreen (s : State) : State := emit .clear ((s.withBuf []).withCursor 0)

/-- `MemRead(addr, 1)` (spec/20_memory.md R44). -/
def memRead (s : State) (addr : Int) : Byte :=
  match translateAddr s.geom addr with
  | some k => readCell s k
  | none => 0#8

/-- `MemWrite(addr, 1, v)` (spec/20_memory.md R45). -/
def memWrite (addr : Int) (v : Byte) (s : State) : State :=
  match translateAddr s.geom addr with
  | some k => update k v s
  | none => s

/-- `raise OutOfRange(cmd, operands)`: TAKING THE EXCEPTION. The record is latched and the host gets the faulted outcome
in place of a result; buffer, cursor and notifications stay (spec/60_exceptions.md R161, R166; log 6). There is no
handler and no return from it (R166). -/
def raiseOutOfRange (r : OutOfRange) (s : State) : Exec := .next ((s.withFault r).withReply (.outOfRange r))

/-- The command returns to the host with its result (spec/00_scope.md R10). -/
def complete (r : Reply) (s : State) : Exec := .next (s.withReply r)

/-- A command is accepted only while no fault is latched (spec/60_exceptions.md R164; log 7). -/
def accept (s : State) (body : State → Exec) : Exec :=
  match s.fault with
  | none => body s
  | some _ => .refused .blockFaulted

/-- The mnemonic a fault record names (spec/60_exceptions.md R163). -/
def OutOfRange.cmd : OutOfRange → String
  | .bufGet _ => "BUF_GET"
  | .bufSet _ => "BUF_SET"
  | .printAt _ => "PRINT_AT"
  | .tab _ => "TAB"
  | .set _ _ => "SET"
  | .reset _ _ => "RESET"
  | .point _ _ => "POINT"

/-- The cause code of the latch: 1 for OutOfRange, 0 for no fault (spec/60_exceptions.md R160; log 21). -/
def causeCode : Option OutOfRange → Nat
  | none => 0
  | some _ => 1

/-- The next command on the host's port, and the state with it taken off (log 2). -/
def fetch (s : State) : Option (Instr × State) :=
  match s.pending with
  | [] => none
  | i :: rest => some (i, s.withPending rest)

end Sys2Proof.Machine
end

