-- ==== Sys2Proof/Machine/Buffer.lean ====
section
/-! DEFINITION. The character buffer's own commands, BUF_GET and BUF_SET (spec/40_character_buffer.md). -/

namespace Sys2Proof.Machine

/-- BUF_GET: read one cell by index (spec/40_character_buffer.md R81). -/
def execBufGet (pos : Int) (s : State) : Exec :=
  accept s fun s =>
    if inBufRange s.geom pos then complete (.code (readCell s pos.toNat)) s
    else raiseOutOfRange (.bufGet pos) s

/-- BUF_SET: write one cell by index (spec/40_character_buffer.md R82). -/
def execBufSet (pos : Int) (code : Byte) (s : State) : Exec :=
  accept s fun s =>
    if inBufRange s.geom pos then complete .done (update pos.toNat code s)
    else raiseOutOfRange (.bufSet pos) s

end Sys2Proof.Machine
end

