-- ==== Sys2Proof/Machine/Control.lean ====
section
/-! DEFINITION. The control command CLS (spec/44_control.md). -/

namespace Sys2Proof.Machine

/-- CLS: blank every cell, home the cursor, send one `Clear` (spec/44_control.md R150). -/
def execCls (s : State) : Exec := accept s fun s => complete .done (clearScreen s)

end Sys2Proof.Machine
end

