-- ==== Sys2Proof/Decode.lean ====
section
/-! DEFINITION. The stream-code decoder and encoder (spec/30_encoding.md R63 to R66) and the bit patterns of
spec/opcode_table.json. Host commands are abstract records without a binary encoding (R69), so nothing decodes to
one and the encoder answers `none` for one (log 22). -/

namespace Sys2Proof

/-- Why a list of codes holds no instruction. -/
inductive DecodeError where
  /-- No code is left. Every code that is there decodes (spec/30_encoding.md R67). Safe. -/
  | noCode
  deriving DecidableEq, Repr

/-- The complete decode of the 256 stream codes (spec/30_encoding.md R64). -/
def decodeCode (c : Byte) : StreamOp :=
  if c = 8#8 then .bs
  else if c = 10#8 then .lf
  else if c = 13#8 then .cr
  else if c = 24#8 then .left
  else if c = 25#8 then .right
  else if c = 26#8 then .down
  else if c = 27#8 then .up
  else if c = 28#8 then .home
  else if c = 29#8 then .sol
  else if c = 30#8 then .eol
  else if c = 31#8 then .eos
  else if 191 ≤ c.toNat then .tabc (c.toNat - Config.tabBase)
  else .glyph c

/-- The code of a stream action (spec/30_encoding.md R64). -/
def encodeOp : StreamOp → Byte
  | .bs => 0b00001000#8
  | .lf => 0b00001010#8
  | .cr => 0b00001101#8
  | .left => 0b00011000#8
  | .right => 0b00011001#8
  | .down => 0b00011010#8
  | .up => 0b00011011#8
  | .home => 0b00011100#8
  | .sol => 0b00011101#8
  | .eol => 0b00011110#8
  | .eos => 0b00011111#8
  | .tabc t => BitVec.ofNat 8 (Config.tabBase + t)
  | .glyph c => c

/-- Decode the first code of a list and return the rest: no code is a prefix and none consumes another
(spec/30_encoding.md R63). -/
def decode : List Byte → Except DecodeError (Instr × List Byte)
  | [] => .error .noCode
  | c :: rest => .ok ((decodeCode c).toInstr, rest)

/-- The code of an instruction: one code for a stream action, none for a host command (spec/30_encoding.md R69). -/
def encode : Instr → Option Byte
  | .bs => some (encodeOp .bs)
  | .lf => some (encodeOp .lf)
  | .cr => some (encodeOp .cr)
  | .left => some (encodeOp .left)
  | .right => some (encodeOp .right)
  | .down => some (encodeOp .down)
  | .up => some (encodeOp .up)
  | .home => some (encodeOp .home)
  | .sol => some (encodeOp .sol)
  | .eol => some (encodeOp .eol)
  | .eos => some (encodeOp .eos)
  | .tabc t => some (encodeOp (.tabc t))
  | .glyph c => some (encodeOp (.glyph c))
  | .cls => none
  | .print _ => none
  | .printAt _ _ => none
  | .tab _ => none
  | .set _ _ => none
  | .reset _ _ => none
  | .point _ _ => none
  | .peek _ => none
  | .poke _ _ => none
  | .bufGet _ => none
  | .bufSet _ _ => none

/-- One stream-code row of spec/opcode_table.json: a code `c` is of the row when `c &&& mask = pattern`. -/
structure CodeRow where
  pattern : Byte
  mask : Byte
  /-- The instruction a code of the row stands for, by spec/30_encoding.md R64 to R66. -/
  op : Byte → StreamOp

/-- Whether a code is of the row. -/
def CodeRow.covers (r : CodeRow) (c : Byte) : Bool := c &&& r.mask = r.pattern

/-- The 11 rows of the codes that stand alone. -/
def singleCodeRows : List CodeRow :=
  [ ⟨8#8, 255#8, fun _ => .bs⟩, ⟨10#8, 255#8, fun _ => .lf⟩, ⟨13#8, 255#8, fun _ => .cr⟩,
    ⟨24#8, 255#8, fun _ => .left⟩, ⟨25#8, 255#8, fun _ => .right⟩, ⟨26#8, 255#8, fun _ => .down⟩,
    ⟨27#8, 255#8, fun _ => .up⟩, ⟨28#8, 255#8, fun _ => .home⟩, ⟨29#8, 255#8, fun _ => .sol⟩,
    ⟨30#8, 255#8, fun _ => .eol⟩, ⟨31#8, 255#8, fun _ => .eos⟩ ]

/-- The 2 rows of TABC, with the operand as spec/30_encoding.md R65 derives it from the bits. -/
def tabCodeRows : List CodeRow :=
  [ ⟨191#8, 255#8, fun _ => .tabc 0⟩,
    ⟨192#8, 192#8, fun c => .tabc ((c.extractLsb 5 0).toNat + 1)⟩ ]

/-- The 14 rows of GLYPH (spec/90_conflicts.md C8 lists them). -/
def glyphCodeRows : List CodeRow :=
  [ ⟨0x00#8, 0xF8#8, .glyph⟩, ⟨0x09#8, 0xFF#8, .glyph⟩, ⟨0x0B#8, 0xFF#8, .glyph⟩, ⟨0x0C#8, 0xFF#8, .glyph⟩,
    ⟨0x0E#8, 0xFE#8, .glyph⟩, ⟨0x10#8, 0xF8#8, .glyph⟩, ⟨0x20#8, 0xE0#8, .glyph⟩, ⟨0x40#8, 0xC0#8, .glyph⟩,
    ⟨0x80#8, 0xE0#8, .glyph⟩, ⟨0xA0#8, 0xF0#8, .glyph⟩, ⟨0xB0#8, 0xF8#8, .glyph⟩, ⟨0xB8#8, 0xFC#8, .glyph⟩,
    ⟨0xBC#8, 0xFE#8, .glyph⟩, ⟨0xBE#8, 0xFF#8, .glyph⟩ ]

/-- The 27 stream-code rows of spec/opcode_table.json. -/
def codeRows : List CodeRow := singleCodeRows ++ tabCodeRows ++ glyphCodeRows

/-- The codes of a table word: `nbits / 8` of them, the first in bits 7..0. -/
def tableWordCodes (nbits w : Nat) : List Byte :=
  (List.range (nbits / 8)).map fun k => BitVec.ofNat 8 (w / 2 ^ (8 * k))

/-- What the decoder reads from a table word: the instruction of its one code, and none where there is no code (a host
command's row has no bits) or more than one. -/
def decodeTableWord (nbits w : Nat) : Option Instr :=
  match decode (tableWordCodes nbits w) with
  | .ok (i, []) => some i
  | .ok (_, _ :: _) => none
  | .error .noCode => none

end Sys2Proof
end

