-- ==== Sys2Proof/Machine/Cursor.lean ====
section
/-! DEFINITION. The cursor state machine: the action of each stream code, the print stream, PRINT, PRINT_AT and TAB
(spec/41_cursor_fsm.md). An action is a total function of the state, because no stream code can raise (R111). Each
action is also an instruction of its own, with the effect of a PRINT of its one code (log 5).

Every action keeps the cursor in range, by the means R108 names for it: BS, LEFT, RIGHT, DOWN and UP by a remainder of
positive modulus (`predMod`, `succMod`), HOME and SOL by a row's start, TABC by its guard, NewLine and GLYPH by staying
below `CHARS_LEN` or going to `LAST_ROW_START`. `inCursorRange` is the range. -/

namespace Sys2Proof.Machine

/-- BS: back one cell, wrapping through the whole buffer, and blank the cell the cursor is now on
(spec/41_cursor_fsm.md R94; log 11). -/
def streamBs (s : State) : State :=
  let c := predMod s.cursor s.geom.charsLen
  update c Config.blank (s.withCursor c)

/-- `NewLine`, the action codes 10 and 13 share: blank from the cursor to the end of its row, then go to the next row's
start or, on the last row, scroll and go to the start of the last row (spec/41_cursor_fsm.md R95; log 12). -/
def newLine (s : State) : State :=
  let g := s.geom
  let r := rowOf g s.cursor
  let blanked := blankRange s.cursor (rowStart g (r + 1)) s
  if r < g.lineCount - 1 then blanked.withCursor (rowStart g (r + 1))
  else (scroll blanked).withCursor (lastRowStart g)

/-- LF (spec/41_cursor_fsm.md R96). -/
def streamLf (s : State) : State := newLine s

/-- CR, identical to LF (spec/41_cursor_fsm.md R97). -/
def streamCr (s : State) : State := newLine s

/-- LEFT: one column left, wrapping within the row (spec/41_cursor_fsm.md R98). -/
def streamLeft (s : State) : State :=
  let g := s.geom
  s.withCursor (rowStart g (rowOf g s.cursor) + predMod (colOf g s.cursor) g.lineWidth)

/-- RIGHT: one column right, wrapping within the row (spec/41_cursor_fsm.md R99). -/
def streamRight (s : State) : State :=
  let g := s.geom
  s.withCursor (rowStart g (rowOf g s.cursor) + succMod (colOf g s.cursor) g.lineWidth)

/-- DOWN: one row down, wrapping within the column (spec/41_cursor_fsm.md R100). -/
def streamDown (s : State) : State :=
  let g := s.geom
  s.withCursor (rowStart g (succMod (rowOf g s.cursor) g.lineCount) + colOf g s.cursor)

/-- UP: one row up, wrapping within the column (spec/41_cursor_fsm.md R101). -/
def streamUp (s : State) : State :=
  let g := s.geom
  s.withCursor (rowStart g (predMod (rowOf g s.cursor) g.lineCount) + colOf g s.cursor)

/-- HOME (spec/41_cursor_fsm.md R102). -/
def streamHome (s : State) : State := s.withCursor 0

/-- SOL: to the start of the current row (spec/41_cursor_fsm.md R103). -/
def streamSol (s : State) : State := s.withCursor (rowStart s.geom (rowOf s.geom s.cursor))

/-- EOL: blank from the cursor to the end of its row (spec/41_cursor_fsm.md R104). -/
def streamEol (s : State) : State := blankRange s.cursor (rowStart s.geom (rowOf s.geom s.cursor + 1)) s

/-- EOS: blank from the cursor to the end of the buffer (spec/41_cursor_fsm.md R105). -/
def streamEos (s : State) : State := blankRange s.cursor s.geom.charsLen s

/-- TABC: forward to column `t` of the current row, if the row has it and it is to the right of the cursor
(spec/41_cursor_fsm.md R106; log 13). -/
def streamTabc (t : Nat) (s : State) : State :=
  let g := s.geom
  if t < g.lineWidth ∧ colOf g s.cursor < t then s.withCursor (rowStart g (rowOf g s.cursor) + t) else s

/-- GLYPH: write the code at the cursor and advance; past the last cell, scroll and go to the start of the last row
(spec/41_cursor_fsm.md R107). -/
def streamGlyph (c : Byte) (s : State) : State :=
  let written := update s.cursor c s
  if s.cursor + 1 = s.geom.charsLen then (scroll written).withCursor (lastRowStart s.geom)
  else written.withCursor (s.cursor + 1)

/-- The action of a decoded stream code (spec/41_cursor_fsm.md R93). It keeps the cursor in range (R108). -/
def streamAction (op : StreamOp) (s : State) : State :=
  match op with
  | .bs => streamBs s
  | .lf => streamLf s
  | .cr => streamCr s
  | .left => streamLeft s
  | .right => streamRight s
  | .down => streamDown s
  | .up => streamUp s
  | .home => streamHome s
  | .sol => streamSol s
  | .eol => streamEol s
  | .eos => streamEos s
  | .tabc t => streamTabc t s
  | .glyph c => streamGlyph c s

/-- `Step(c)` (spec/41_cursor_fsm.md R93). -/
def streamStep (c : Byte) (s : State) : State := streamAction (decodeCode c) s

/-- The codes of a print stream, strictly in order (spec/41_cursor_fsm.md R90). It keeps the cursor in range (R108). -/
def printStream : List Byte → State → State
  | [], s => s
  | c :: rest, s => printStream rest (streamStep c s)

/-- The instruction BS (spec/41_cursor_fsm.md R94). -/
def execBs (s : State) : Exec := accept s fun s => complete .done (streamBs s)

/-- The instruction LF (spec/41_cursor_fsm.md R96). -/
def execLf (s : State) : Exec := accept s fun s => complete .done (streamLf s)

/-- The instruction CR (spec/41_cursor_fsm.md R97). -/
def execCr (s : State) : Exec := accept s fun s => complete .done (streamCr s)

/-- The instruction LEFT (spec/41_cursor_fsm.md R98). -/
def execLeft (s : State) : Exec := accept s fun s => complete .done (streamLeft s)

/-- The instruction RIGHT (spec/41_cursor_fsm.md R99). -/
def execRight (s : State) : Exec := accept s fun s => complete .done (streamRight s)

/-- The instruction DOWN (spec/41_cursor_fsm.md R100). -/
def execDown (s : State) : Exec := accept s fun s => complete .done (streamDown s)

/-- The instruction UP (spec/41_cursor_fsm.md R101). -/
def execUp (s : State) : Exec := accept s fun s => complete .done (streamUp s)

/-- The instruction HOME (spec/41_cursor_fsm.md R102). -/
def execHome (s : State) : Exec := accept s fun s => complete .done (streamHome s)

/-- The instruction SOL (spec/41_cursor_fsm.md R103). -/
def execSol (s : State) : Exec := accept s fun s => complete .done (streamSol s)

/-- The instruction EOL (spec/41_cursor_fsm.md R104). -/
def execEol (s : State) : Exec := accept s fun s => complete .done (streamEol s)

/-- The instruction EOS (spec/41_cursor_fsm.md R105). -/
def execEos (s : State) : Exec := accept s fun s => complete .done (streamEos s)

/-- The instruction TABC (spec/41_cursor_fsm.md R106). -/
def execTabc (t : Nat) (s : State) : Exec := accept s fun s => complete .done (streamTabc t s)

/-- The instruction GLYPH (spec/41_cursor_fsm.md R107). -/
def execGlyph (c : Byte) (s : State) : Exec := accept s fun s => complete .done (streamGlyph c s)

/-- PRINT: interpret a print stream at the cursor (spec/41_cursor_fsm.md R90). -/
def execPrint (codes : List Byte) (s : State) : Exec := accept s fun s => complete .done (printStream codes s)

/-- PRINT_AT: set the cursor, then print (spec/41_cursor_fsm.md R91). -/
def execPrintAt (pos : Int) (codes : List Byte) (s : State) : Exec :=
  accept s fun s =>
    if inBufRange s.geom pos then complete .done (printStream codes (s.withCursor pos.toNat))
    else raiseOutOfRange (.printAt pos) s

/-- TAB: compute a tab code; no state is read or written but the reply (spec/41_cursor_fsm.md R92). -/
def execTab (n : Int) (s : State) : Exec :=
  accept s fun s => if inTabRange n then complete (.code (tabCode n)) s else raiseOutOfRange (.tab n) s

end Sys2Proof.Machine
end

