-- ==== Sys2Proof/Machine/MemoryMap.lean ====
section
/-! DEFINITION. The memory-mapped commands PEEK and POKE (spec/43_memory_map.md). -/

namespace Sys2Proof.Machine

/-- PEEK: read a video address; 0 outside the window, never an exception (spec/43_memory_map.md R140). -/
def execPeek (addr : Int) (s : State) : Exec := accept s fun s => complete (.code (memRead s addr)) s

/-- POKE: write a video address; ignored outside the window, never an exception (spec/43_memory_map.md R141). -/
def execPoke (addr : Int) (val : Byte) (s : State) : Exec :=
  accept s fun s => complete .done (memWrite addr val s)

end Sys2Proof.Machine
end

