-- ==== Sys2Proof/Machine/Semigraphics.lean ====
section
/-! DEFINITION. The pixel commands SET, RESET and POINT (spec/42_semigraphics.md). -/

namespace Sys2Proof.Machine

/-- SET: turn one sub-pixel on, by one `Update` (spec/42_semigraphics.md R130; log 8). -/
def execSet (x y : Int) (s : State) : Exec :=
  accept s fun s =>
    if inPixelRange s.geom x y then
      let cell := pixelCell s.geom x y
      complete .done (update cell (pixelOn (readCell s cell) (pixelBit x y)) s)
    else raiseOutOfRange (.set x y) s

/-- RESET: turn one sub-pixel off, by one `Update` (spec/42_semigraphics.md R131; log 8). -/
def execReset (x y : Int) (s : State) : Exec :=
  accept s fun s =>
    if inPixelRange s.geom x y then
      let cell := pixelCell s.geom x y
      complete .done (update cell (pixelOff (readCell s cell) (pixelBit x y)) s)
    else raiseOutOfRange (.reset x y) s

/-- POINT: read one sub-pixel (spec/42_semigraphics.md R132). -/
def execPoint (x y : Int) (s : State) : Exec :=
  accept s fun s =>
    if inPixelRange s.geom x y then
      complete (.truth (pixelLit (readCell s (pixelCell s.geom x y)) (pixelBit x y))) s
    else raiseOutOfRange (.point x y) s

end Sys2Proof.Machine
end

