-- ==== Sys2Proof/Machine/Dispatch.lean ====
section
/-! DEFINITION. The meaning of every instruction, one arm per constructor. -/

namespace Sys2Proof.Machine

def exec (i : Instr) (s : State) : Host.Outcome State Fault Refusal :=
  match i with
  | .bs => Sys2Proof.Machine.execBs s
  | .lf => Sys2Proof.Machine.execLf s
  | .cr => Sys2Proof.Machine.execCr s
  | .left => Sys2Proof.Machine.execLeft s
  | .right => Sys2Proof.Machine.execRight s
  | .down => Sys2Proof.Machine.execDown s
  | .up => Sys2Proof.Machine.execUp s
  | .home => Sys2Proof.Machine.execHome s
  | .sol => Sys2Proof.Machine.execSol s
  | .eol => Sys2Proof.Machine.execEol s
  | .eos => Sys2Proof.Machine.execEos s
  | .tabc t => Sys2Proof.Machine.execTabc t s
  | .glyph c => Sys2Proof.Machine.execGlyph c s
  | .cls => Sys2Proof.Machine.execCls s
  | .print codes => Sys2Proof.Machine.execPrint codes s
  | .printAt pos codes => Sys2Proof.Machine.execPrintAt pos codes s
  | .tab n => Sys2Proof.Machine.execTab n s
  | .set x y => Sys2Proof.Machine.execSet x y s
  | .reset x y => Sys2Proof.Machine.execReset x y s
  | .point x y => Sys2Proof.Machine.execPoint x y s
  | .peek addr => Sys2Proof.Machine.execPeek addr s
  | .poke addr val => Sys2Proof.Machine.execPoke addr val s
  | .bufGet pos => Sys2Proof.Machine.execBufGet pos s
  | .bufSet pos code => Sys2Proof.Machine.execBufSet pos code s

end Sys2Proof.Machine
end

