-- ==== Sys2Proof/Machine/Step.lean ====
section
/-! DEFINITION. One step: the block takes the host's next command and runs it from start to end (spec/00_scope.md R12,
spec/60_exceptions.md R169). -/

namespace Sys2Proof.Machine

/-- One step. With no command pending the block is idle and holds its state (spec/60_exceptions.md R175; log 4). A pending
term that is no instruction is refused (log 19). -/
def step (s : State) : Host.Outcome State Fault Refusal :=
  match fetch s with
  | none => .next s
  | some (i, rest) => if i.wellFormed then exec i rest else .refused .illFormed

/-- `s` with the instruction of a table word issued next: a stream code reaches the block as the one code of a PRINT, so
that command goes to the front of the port (log 2, log 5). -/
def State.withFetchWord (s : State) (nbits w : Nat) : State :=
  s.withPending (.print (tableWordCodes nbits w) :: s.pending)

end Sys2Proof.Machine
end

