-- ==== Sys2Proof/Safety.lean ====
section
/-! DEFINITION. What a good state is, in the terms the statements use: the structural invariant of spec/10_state.md R28
(1) and (2), and the Renderer's surface as R28 (3) and (4) replay it from the notification log. -/

namespace Sys2Proof.Machine

/-- The block accepts commands: no fault is latched (spec/60_exceptions.md R164). -/
abbrev State.Running (s : State) : Prop := s.fault = none

/-- A fault record whose operands really are outside their domain (spec/60_exceptions.md R162). -/
def OutOfRange.Genuine (g : Geometry) : OutOfRange → Prop
  | .bufGet pos => ¬ inBufRange g pos
  | .bufSet pos => ¬ inBufRange g pos
  | .printAt pos => ¬ inBufRange g pos
  | .tab n => ¬ inTabRange n
  | .set x y => ¬ inPixelRange g x y
  | .reset x y => ¬ inPixelRange g x y
  | .point x y => ¬ inPixelRange g x y

/-- The structural invariant: a legal geometry, exactly `CHARS_LEN` cells in canonical form, the cursor in range, and a
latched record only for an operand out of range (spec/10_state.md R28 (1), (2); spec/41_cursor_fsm.md R108;
spec/60_exceptions.md R162). -/
structure State.Inv (s : State) : Prop where
  geom_valid : s.geom.Valid
  buf_wf : Memory.wf s.buf
  buf_within : Memory.within s.geom.charsLen s.buf
  cursor_lt : inCursorRange s.geom s.cursor
  fault_genuine : ∀ r, s.fault = some r → r.Genuine s.geom

/-- The Renderer's surface as the notifications describe it: the code each cell shows. It is no state of the block
(spec/10_state.md R30); statements alone speak of it. -/
abbrev Surface := Nat → Byte

/-- A blank surface (spec/70_reset_and_hazards.md R184). -/
def Surface.blank : Surface := fun _ => Config.blank

/-- The Renderer's duty for one notification (spec/60_exceptions.md R170): redraw one cell, shift up by one row and blank
the bottom row, or blank everything. -/
def Surface.apply (g : Geometry) (σ : Surface) : Event → Surface
  | .cellChanged pos _ new => fun k => if k = pos then new else σ k
  | .scroll => fun k => if k + g.lineWidth < g.charsLen then σ (k + g.lineWidth) else Config.blank
  | .clear => fun _ => Config.blank

/-- The surface after a log of notifications, oldest first. -/
def Surface.replay (g : Geometry) (σ : Surface) (log : List Event) : Surface :=
  log.foldl (Surface.apply g) σ

/-- The surface the whole log makes of a blank one shows the buffer, cell by cell (spec/10_state.md R28 (4)). -/
def State.DisplayShowsBuffer (s : State) : Prop :=
  ∀ k, k < s.geom.charsLen → Surface.replay s.geom Surface.blank s.events k = readCell s k

/-- Every `CellChanged(pos, old, new)` of the log names a cell of the buffer, `old` is what that cell showed just before
it, and `new` differs from it (spec/10_state.md R26, R28 (3)). -/
def State.LogTruthful (s : State) : Prop :=
  ∀ before pos old new after, s.events = before ++ Event.cellChanged pos old new :: after →
    pos < s.geom.charsLen ∧ old ≠ new ∧ Surface.replay s.geom Surface.blank before pos = old

/-- The notifications that blanking `n` cells from cell `a` sends: one for each cell that is not blank, lowest index first
(spec/40_character_buffer.md R83; the order is the spec's decision D8, log 10). -/
def blankEvents (s : State) (a n : Nat) : List Event :=
  ((List.range' a n).filter fun k => readCell s k ≠ Config.blank).map fun k =>
    Event.cellChanged k (readCell s k) Config.blank

/-- The notifications that writing `v` to cell `i` sends: one on a change, none otherwise
(spec/40_character_buffer.md R80). -/
def changeEvents (s : State) (i : Nat) (v : Byte) : List Event :=
  if readCell s i = v then [] else [Event.cellChanged i (readCell s i) v]

/-- `t` has the configuration, the fault latch and the pending commands of `s`. -/
def State.KeepsControl (s t : State) : Prop := t.geom = s.geom ∧ t.fault = s.fault ∧ t.pending = s.pending

/-- `n` steps of the machine. -/
def runSteps (n : Nat) (s : State) : Exec := Host.Core.run Sys2Proof.core n s

/-- Two states that nothing but the history of notifications tells apart. -/
def State.SameButLog (s t : State) : Prop :=
  t.geom = s.geom ∧ t.buf = s.buf ∧ t.cursor = s.cursor ∧ t.fault = s.fault ∧ t.pending = s.pending ∧
    t.reply = s.reply

end Sys2Proof.Machine
end

