-- ==== Sys2Proof/Certificates/Slice0/Obligations.lean ====
section
/-! DEFINITION. The statements for the provers, from the numbered rules of spec/. Where a statement rests on a decision
of spec/92_eei_decisions.md or on a convention of the model, its docstring names the decision or the log entry. -/

open Sys2Proof Sys2Proof.Machine

/-! ### Encodings -/

/-- A few codes written out bit by bit decode to their instructions, and the codes after the first are left as they are
(spec/30_encoding.md R63, R64). -/
def Obligations.WrittenCodesDecode : Prop :=
  decode [0b00001000#8, 0b01000001#8] = .ok (.bs, [0b01000001#8]) ∧
  decode [0b00001010#8] = .ok (.lf, []) ∧
  decode [0b00001101#8] = .ok (.cr, []) ∧
  decode [0b00011011#8, 0b01011011#8] = .ok (.up, [0b01011011#8]) ∧
  decode [0b00011111#8] = .ok (.eos, []) ∧
  decode [0b10111110#8] = .ok (.glyph 190#8, []) ∧
  decode [0b10111111#8] = .ok (.tabc 0, []) ∧
  decode [0b11000000#8] = .ok (.tabc 1, []) ∧
  decode [0b11111111#8] = .ok (.tabc 64, [])

/-- The complete decode of the 256 stream codes (spec/30_encoding.md R64). -/
def Obligations.EveryCodeDecodesAsTheTableSays : Prop :=
  ∀ c : Byte,
    (c = 8#8 → decodeCode c = .bs) ∧ (c = 10#8 → decodeCode c = .lf) ∧ (c = 13#8 → decodeCode c = .cr) ∧
    (c = 24#8 → decodeCode c = .left) ∧ (c = 25#8 → decodeCode c = .right) ∧ (c = 26#8 → decodeCode c = .down) ∧
    (c = 27#8 → decodeCode c = .up) ∧ (c = 28#8 → decodeCode c = .home) ∧ (c = 29#8 → decodeCode c = .sol) ∧
    (c = 30#8 → decodeCode c = .eol) ∧ (c = 31#8 → decodeCode c = .eos) ∧
    (191 ≤ c.toNat → decodeCode c = .tabc (c.toNat - 191)) ∧
    ((c.toNat ≤ 7 ∨ c.toNat = 9 ∨ c.toNat = 11 ∨ c.toNat = 12 ∨ (14 ≤ c.toNat ∧ c.toNat ≤ 23) ∨
      (32 ≤ c.toNat ∧ c.toNat ≤ 190)) → decodeCode c = .glyph c)

/-- The 27 bit patterns of spec/opcode_table.json take every code exactly once, and each gives the instruction and the
operand the decoder reads (spec/95_test_vectors.md section 4, spec/30_encoding.md R65, R66). -/
def Obligations.OpcodeRowsPartitionTheCodes : Prop :=
  ∀ c : Byte, (codeRows.filter fun r => r.covers c).map (fun r => r.op c) = [decodeCode c]

/-- Decode and encode agree, both ways: the code of a well-formed instruction decodes to it whatever follows; every code
is the code of the well-formed instruction it decodes to; and only the host commands have no code
(spec/30_encoding.md R64 to R67, R69). -/
def Obligations.DecodeAndEncodeAgree : Prop :=
  (∀ (i : Instr) (b : Byte) (rest : List Byte), i.wellFormed = true → encode i = some b →
    decode (b :: rest) = .ok (i, rest)) ∧
  (∀ (b : Byte) (rest : List Byte), ∃ i, decode (b :: rest) = .ok (i, rest) ∧ i.wellFormed = true ∧
    encode i = some b) ∧
  (∀ i : Instr, encode i = none ↔ i.isCommand = true)

/-! ### Steps -/

/-- A step runs the instruction at the front of the host's port with that instruction taken off, and does nothing else.
The port is the model's own (log 2); spec/60_exceptions.md R169, spec/00_scope.md R12. -/
def Obligations.StepRunsThePendingInstruction : Prop :=
  ∀ (s : State) (i : Instr) (rest : List Instr), s.pending = i :: rest → i.wellFormed = true →
    step s = exec i { s with pending := rest }

/-- A stream code that reaches the block is run as the instruction it decodes to: a step on a PRINT of one code, and a step
on a state with a table word to fetch (spec/41_cursor_fsm.md R90, R93; the port is the model's, log 2 and log 5). -/
def Obligations.StepRunsTheDecodedCode : Prop :=
  (∀ (s : State) (c : Byte) (rest : List Instr), s.pending = .print [c] :: rest →
    step s = exec (decodeCode c).toInstr { s with pending := rest }) ∧
  (∀ (s : State) (w : Nat),
    step (s.withFetchWord 8 w) = exec (decodeCode (BitVec.ofNat 8 w)).toInstr s)

/-- With nothing pending the block holds its state; a pending term that no code decodes to is refused by name. Both are the
model's conventions (log 4, from spec/60_exceptions.md R175; log 19). -/
def Obligations.StepIdlesAndRefusesIllFormedTerms : Prop :=
  ∀ s : State,
    (s.pending = [] → step s = .next s) ∧
    (∀ (i : Instr) (rest : List Instr), s.pending = i :: rest → i.wellFormed = false → step s = .refused .illFormed)

/-! ### Construction -/

/-- Construction gives every cell 32, cursor 0, no fault and no notification, for every legal geometry, and is refused
otherwise (spec/70_reset_and_hazards.md R180, R181). No fault and no notification are the spec's decisions D4 and D12
and refusing is D1; `State.reset` is that state at the reference geometry, which is PRESUMED (log 1); no command pending
and no reply are the model's choices (log 2, log 3). -/
def Obligations.ConstructionState : Prop :=
  (∀ g : Geometry, g.Valid → ∃ t, State.construct g = .next t ∧ t.geom = g ∧
    (∀ k, readCell t k = 32#8) ∧ (∀ k, graphicsMode (readCell t k) = false) ∧
    t.cursor = 0 ∧ t.fault = none ∧ t.events = [] ∧ t.pending = [] ∧ t.reply = none) ∧
  (∀ g : Geometry, ¬ g.Valid → State.construct g = .refused .badGeometry) ∧
  State.construct ⟨64, 16⟩ = .next State.reset

/-- The construction state of every legal geometry, `State.reset` among them, meets the invariants that every step keeps. -/
def Obligations.ConstructionMeetsTheInvariants : Prop :=
  (∀ g : Geometry, g.Valid →
    (State.fresh g).Inv ∧ (State.fresh g).DisplayShowsBuffer ∧ (State.fresh g).LogTruthful) ∧
  State.reset.Inv ∧ State.reset.DisplayShowsBuffer ∧ State.reset.LogTruthful

/-! ### Invariants that every step keeps -/

/-- Every step keeps the structural invariant: `CHARS_LEN` cells in canonical form, the cursor in range, a legal geometry,
and a latched record only for an operand out of range (spec/10_state.md R28 (1), (2); the spec marks them derived). -/
def Obligations.EveryStepKeepsTheInvariant : Prop :=
  ∀ s t : State, s.Inv → step s = .next t → t.Inv

/-- Every step keeps the Renderer's surface showing the buffer: replaying the notifications onto a blank surface gives each
cell's current code (spec/10_state.md R28 (4); the notifications follow the spec's decisions D6 to D8 and D12). -/
def Obligations.EveryStepKeepsTheDisplayConsistent : Prop :=
  ∀ s t : State, s.Inv → s.DisplayShowsBuffer → step s = .next t → t.DisplayShowsBuffer

/-- Every step keeps the log truthful: each `CellChanged(pos, old, new)` names a cell that showed `old` just before it, and
`new` differs (spec/10_state.md R26, R28 (3)). -/
def Obligations.EveryStepKeepsTheLogTruthful : Prop :=
  ∀ s t : State, s.Inv → s.DisplayShowsBuffer → s.LogTruthful → step s = .next t → t.LogTruthful

/-- No step changes the geometry, takes back a notification or clears the fault latch (spec/10_state.md R24, R26, R27). -/
def Obligations.NoStepRewritesGeometryLogOrFault : Prop :=
  ∀ s t : State, step s = .next t →
    t.geom = s.geom ∧ (∃ new, t.events = s.events ++ new) ∧ (∀ r, s.fault = some r → t.fault = some r)

/-- Only CLS sends `Clear`, and only the printing instructions and the new-line and glyph codes send `Scroll`
(spec/10_state.md R26; the granularity is the spec's decision D7). -/
def Obligations.OnlyTheNamedInstructionsClearOrScroll : Prop :=
  ∀ (i : Instr) (s t : State), exec i s = .next t → ∃ new, t.events = s.events ++ new ∧
    (Event.clear ∈ new → i = .cls) ∧
    (Event.scroll ∈ new → i = .lf ∨ i = .cr ∨ (∃ c, i = .glyph c) ∨ (∃ codes, i = .print codes) ∨
      ∃ pos codes, i = .printAt pos codes)

/-- A step that moves the cursor runs CLS, PRINT, PRINT_AT or a stream action: no other command writes it
(spec/10_state.md R23, whose list the spec marks derived). -/
def Obligations.OnlyPrintingAndClsMoveTheCursor : Prop :=
  ∀ s t : State, step s = .next t → t.cursor ≠ s.cursor →
    ∃ i rest, s.pending = i :: rest ∧
      (i = .cls ∨ (∃ codes, i = .print codes) ∨ (∃ pos codes, i = .printAt pos codes) ∨ i.isCommand = false)

/-! ### Stream codes -/

/-- BS wraps back one cell through the whole buffer and blanks the cell it comes to, and changes nothing else
(spec/41_cursor_fsm.md R94). Which cell is blanked is the spec's decision D9 (log 11). -/
def Obligations.BackspaceBlanksTheCellBefore : Prop :=
  ∀ s : State, s.Running → s.geom.Valid → ∃ t, exec .bs s = .next t ∧
    (t.cursor : Int) = ((s.cursor : Int) - 1) % (s.geom.charsLen : Int) ∧
    (∀ k, readCell t k = if k = t.cursor then 32#8 else readCell s k) ∧
    t.events = s.events ++ changeEvents s t.cursor 32#8 ∧
    s.KeepsControl t ∧ t.reply = some .done

/-- LF and CR blank from the cursor to the end of its row. On a row that is not the last, the cursor goes to the next row's
start and no other cell changes; on the last row everything then scrolls and the cursor goes to the last row's start
(spec/41_cursor_fsm.md R95, R96, R97). The order of the notifications is the spec's decision D8 (log 10), the cursor
after the scroll D10 (log 12). -/
def Obligations.NewLineCodesBlankAndAdvance : Prop :=
  ∀ (i : Instr) (s : State), i = .lf ∨ i = .cr → s.Running → s.geom.Valid → s.cursor < s.geom.charsLen →
    let g := s.geom
    let r := s.cursor / g.lineWidth
    let rowEnd := (r + 1) * g.lineWidth
    ∃ t, exec i s = .next t ∧ s.KeepsControl t ∧ t.reply = some .done ∧
      (r < g.lineCount - 1 →
        t.cursor = rowEnd ∧
        (∀ k, readCell t k = if s.cursor ≤ k ∧ k < rowEnd then 32#8 else readCell s k) ∧
        t.events = s.events ++ blankEvents s s.cursor (rowEnd - s.cursor)) ∧
      (r = g.lineCount - 1 →
        t.cursor = (g.lineCount - 1) * g.lineWidth ∧
        (∀ k, readCell t k =
          if k + g.lineWidth < g.charsLen ∧ k + g.lineWidth < s.cursor then readCell s (k + g.lineWidth) else 32#8) ∧
        t.events = s.events ++ blankEvents s s.cursor (rowEnd - s.cursor) ++ [Event.scroll])

/-- LEFT: one column left, wrapping within the row; nothing else changes (spec/41_cursor_fsm.md R98). -/
def Obligations.LeftWrapsWithinTheRow : Prop :=
  decode [0b00011000#8] = .ok (.left, []) ∧
  ∀ s : State, s.Running → s.geom.Valid → ∃ c : Nat,
    exec .left s = .next { s with cursor := c, reply := some .done } ∧
    (c : Int) = (s.cursor : Int) / (s.geom.lineWidth : Int) * (s.geom.lineWidth : Int) +
      ((s.cursor : Int) % (s.geom.lineWidth : Int) - 1) % (s.geom.lineWidth : Int)

/-- RIGHT: one column right, wrapping within the row; nothing else changes (spec/41_cursor_fsm.md R99). -/
def Obligations.RightWrapsWithinTheRow : Prop :=
  decode [0b00011001#8] = .ok (.right, []) ∧
  ∀ s : State, s.Running → s.geom.Valid → ∃ c : Nat,
    exec .right s = .next { s with cursor := c, reply := some .done } ∧
    (c : Int) = (s.cursor : Int) / (s.geom.lineWidth : Int) * (s.geom.lineWidth : Int) +
      ((s.cursor : Int) % (s.geom.lineWidth : Int) + 1) % (s.geom.lineWidth : Int)

/-- DOWN: one row down, wrapping within the column; nothing else changes (spec/41_cursor_fsm.md R100). -/
def Obligations.DownWrapsWithinTheColumn : Prop :=
  decode [0b00011010#8] = .ok (.down, []) ∧
  ∀ s : State, s.Running → s.geom.Valid → ∃ c : Nat,
    exec .down s = .next { s with cursor := c, reply := some .done } ∧
    (c : Int) = ((s.cursor : Int) / (s.geom.lineWidth : Int) + 1) % (s.geom.lineCount : Int) *
        (s.geom.lineWidth : Int) + (s.cursor : Int) % (s.geom.lineWidth : Int)

/-- UP: one row up, wrapping within the column; nothing else changes (spec/41_cursor_fsm.md R101). -/
def Obligations.UpWrapsWithinTheColumn : Prop :=
  decode [0b00011011#8] = .ok (.up, []) ∧
  ∀ s : State, s.Running → s.geom.Valid → ∃ c : Nat,
    exec .up s = .next { s with cursor := c, reply := some .done } ∧
    (c : Int) = ((s.cursor : Int) / (s.geom.lineWidth : Int) - 1) % (s.geom.lineCount : Int) *
        (s.geom.lineWidth : Int) + (s.cursor : Int) % (s.geom.lineWidth : Int)

/-- HOME: the cursor goes to cell 0; no cell is written (spec/41_cursor_fsm.md R102). -/
def Obligations.HomeGoesToCellZero : Prop :=
  decode [0b00011100#8] = .ok (.home, []) ∧
  ∀ s : State, s.Running → exec .home s = .next { s with cursor := 0, reply := some .done }

/-- SOL: the cursor goes to the start of its row; no cell is written (spec/41_cursor_fsm.md R103). -/
def Obligations.SolGoesToTheRowStart : Prop :=
  decode [0b00011101#8] = .ok (.sol, []) ∧
  ∀ s : State, s.Running →
    exec .sol s = .next { s with cursor := s.cursor / s.geom.lineWidth * s.geom.lineWidth, reply := some .done }

/-- EOL blanks from the cursor to the end of its row and EOS to the end of the buffer; the cursor and every other cell
stay (spec/41_cursor_fsm.md R104, R105). The order of the notifications is the spec's decision D8 (log 10). -/
def Obligations.EraseCodesBlankToTheirEnd : Prop :=
  ∀ s : State, s.Running →
    (let rowEnd := (s.cursor / s.geom.lineWidth + 1) * s.geom.lineWidth
     ∃ t, exec .eol s = .next t ∧ t.cursor = s.cursor ∧ s.KeepsControl t ∧ t.reply = some .done ∧
      (∀ k, readCell t k = if s.cursor ≤ k ∧ k < rowEnd then 32#8 else readCell s k) ∧
      t.events = s.events ++ blankEvents s s.cursor (rowEnd - s.cursor)) ∧
    (∃ t, exec .eos s = .next t ∧ t.cursor = s.cursor ∧ s.KeepsControl t ∧ t.reply = some .done ∧
      (∀ k, readCell t k = if s.cursor ≤ k ∧ k < s.geom.charsLen then 32#8 else readCell s k) ∧
      t.events = s.events ++ blankEvents s s.cursor (s.geom.charsLen - s.cursor))

/-- TABC moves to its column only when the row has it and it lies to the right; otherwise nothing changes
(spec/41_cursor_fsm.md R106). That a column past the row's end is a no-op is the spec's decision D11 (log 13). -/
def Obligations.TabCodeOnlyMovesForwardInTheRow : Prop :=
  ∀ (s : State) (t : Nat), s.Running →
    (t < s.geom.lineWidth → s.cursor % s.geom.lineWidth < t →
      exec (.tabc t) s =
        .next { s with cursor := s.cursor / s.geom.lineWidth * s.geom.lineWidth + t, reply := some .done }) ∧
    (s.geom.lineWidth ≤ t ∨ t ≤ s.cursor % s.geom.lineWidth →
      exec (.tabc t) s = .next { s with reply := some .done })

/-- GLYPH writes its code at the cursor and advances. Past the last cell everything scrolls and the cursor goes to the last
row's start; otherwise no other cell changes (spec/41_cursor_fsm.md R107, R112). That `Scroll` is sent whether or not a
cell changes is the spec's decision D7 (log 9). -/
def Obligations.GlyphWritesAndAdvances : Prop :=
  ∀ (s : State) (c : Byte), s.Running → s.geom.Valid → s.cursor < s.geom.charsLen →
    let g := s.geom
    ∃ t, exec (.glyph c) s = .next t ∧ s.KeepsControl t ∧ t.reply = some .done ∧
      (s.cursor + 1 < g.charsLen →
        t.cursor = s.cursor + 1 ∧
        (∀ k, readCell t k = if k = s.cursor then c else readCell s k) ∧
        t.events = s.events ++ changeEvents s s.cursor c) ∧
      (s.cursor + 1 = g.charsLen →
        t.cursor = (g.lineCount - 1) * g.lineWidth ∧
        (∀ k, readCell t k =
          if k + g.lineWidth < g.charsLen then (if k + g.lineWidth = s.cursor then c else readCell s (k + g.lineWidth))
          else 32#8) ∧
        t.events = s.events ++ changeEvents s s.cursor c ++ [Event.scroll])

/-- Down then up, up then down, left then right and right then left bring every cursor of the buffer back and change
nothing else (spec/41_cursor_fsm.md R109, which the spec marks derived). -/
def Obligations.OppositeMovesCancel : Prop :=
  ∀ s : State, s.Running → s.geom.Valid → s.cursor < s.geom.charsLen →
    ∀ a b : Instr, (a, b) ∈ [(Instr.down, Instr.up), (.up, .down), (.left, .right), (.right, .left)] →
      ∃ t, exec a s = .next t ∧ exec b t = .next { s with reply := some .done }

/-! ### PRINT, PRINT_AT and TAB -/

/-- PRINT runs the instructions its codes decode to, strictly in order, each on the state the one before it left
(spec/41_cursor_fsm.md R90). -/
def Obligations.PrintRunsItsCodesInOrder : Prop :=
  ∀ s : State, s.Running →
    exec (.print []) s = .next { s with reply := some .done } ∧
    ∀ (c : Byte) (rest : List Byte), ∃ t,
      exec (decodeCode c).toInstr s = .next t ∧ exec (.print (c :: rest)) s = exec (.print rest) t

/-- PRINT never raises and never stops: it completes on every stream, and from a cursor in range it leaves the cursor in
range (spec/41_cursor_fsm.md R108, R111, which the spec marks derived). -/
def Obligations.PrintAlwaysCompletes : Prop :=
  ∀ (s : State) (codes : List Byte), s.Running → ∃ t, exec (.print codes) s = .next t ∧
    s.KeepsControl t ∧ t.reply = some .done ∧
    (s.geom.Valid → s.cursor < s.geom.charsLen → t.cursor < t.geom.charsLen)

/-- PRINT_AT with a valid position is a PRINT from that position, and completes (spec/41_cursor_fsm.md R91; the other
positions raise, by the spec's decision D4). -/
def Obligations.PrintAtPrintsFromItsPosition : Prop :=
  ∀ (s : State) (pos : Int) (codes : List Byte), s.Running → 0 ≤ pos → pos < s.geom.charsLen →
    ∃ t, exec (.printAt pos codes) s = .next t ∧ exec (.print codes) { s with cursor := pos.toNat } = .next t

/-- TAB answers the code `191 + n` and changes nothing but the reply (spec/41_cursor_fsm.md R92; the other arguments raise,
by the spec's decision D4). -/
def Obligations.TabAnswersItsCode : Prop :=
  ∀ (s : State) (n : Int), s.Running → 0 ≤ n → n < 64 →
    ∃ c : Byte, (c.toNat : Int) = 191 + n ∧ exec (.tab n) s = .next { s with reply := some (.code c) }

/-- The code TAB answers, printed, moves the cursor to that column of its row when the row has it and it lies to the right,
and does nothing otherwise (spec/30_encoding.md R73, spec/41_cursor_fsm.md R92, R106; past the row's end by D11). -/
def Obligations.PrintingATabCodeTabs : Prop :=
  ∀ (s t : State) (n : Nat) (c : Byte), s.Running → n < 64 → exec (.tab n) s = .next t → t.reply = some (.code c) →
    exec (.print [c]) s = .next { s with
      cursor := if n < s.geom.lineWidth ∧ s.cursor % s.geom.lineWidth < n
        then s.cursor / s.geom.lineWidth * s.geom.lineWidth + n else s.cursor
      reply := some .done }

/-- Printing exactly one row of glyph codes from column 0 fills that row. On a row that is not the last the cursor goes to
the next row's start without a scroll; on the last row one scroll follows, the printed row stands one row up and the
last row is blank (spec/41_cursor_fsm.md R110, which the spec marks derived; spec/90_conflicts.md C4). -/
def Obligations.PrintingAFullRowOfGlyphs : Prop :=
  ∀ (s : State) (codes : List Byte), s.Running → s.geom.Valid → s.cursor < s.geom.charsLen →
    s.cursor % s.geom.lineWidth = 0 → codes.length = s.geom.lineWidth → (∀ c ∈ codes, decodeCode c = .glyph c) →
    let g := s.geom
    let r := s.cursor / g.lineWidth
    let printed : Nat → Byte := fun k =>
      if s.cursor ≤ k ∧ k < s.cursor + g.lineWidth then codes.getD (k - s.cursor) 32#8 else readCell s k
    ∃ t new, exec (.print codes) s = .next t ∧ Event.scroll ∉ new ∧
      (r < g.lineCount - 1 →
        t.cursor = (r + 1) * g.lineWidth ∧ (∀ k, readCell t k = printed k) ∧ t.events = s.events ++ new) ∧
      (r = g.lineCount - 1 →
        t.cursor = (g.lineCount - 1) * g.lineWidth ∧
        (∀ k, readCell t k = if k + g.lineWidth < g.charsLen then printed (k + g.lineWidth) else 32#8) ∧
        t.events = s.events ++ new ++ [Event.scroll])

/-- A print stream sends at most `CHARS_LEN + LINE_WIDTH` notifications for each of its codes (the work bound of
spec/70_reset_and_hazards.md R189, which the spec marks derived, read for the notifications). -/
def Obligations.PrintSendsBoundedlyManyNotifications : Prop :=
  ∀ (s t : State) (codes : List Byte), s.geom.Valid → s.cursor < s.geom.charsLen → exec (.print codes) s = .next t →
    t.events.length ≤ s.events.length + codes.length * (s.geom.charsLen + s.geom.lineWidth)

/-! ### CLS -/

/-- CLS blanks every cell, homes the cursor and sends one `Clear`, always (spec/44_control.md R150). The single unconditional
notification is the spec's decision D7 (log 9). -/
def Obligations.ClsBlanksAndHomes : Prop :=
  ∀ s : State, s.Running → ∃ t, exec .cls s = .next t ∧
    (∀ k, readCell t k = 32#8) ∧ t.cursor = 0 ∧ t.events = s.events ++ [Event.clear] ∧
    s.KeepsControl t ∧ t.reply = some .done

/-- After CLS the Renderer's surface shows the buffer whatever it showed before (spec/70_reset_and_hazards.md R184,
spec/60_exceptions.md R170; the notification is the spec's decision D7). -/
def Obligations.ClsMakesAnySurfaceShowTheBuffer : Prop :=
  ∀ (s t : State) (before : Surface), exec .cls s = .next t →
    ∀ k, Surface.replay s.geom before t.events k = readCell t k

/-- A program that starts with CLS behaves the same from every unfaulted state of one geometry: step by step the two runs
agree on everything but the notifications sent before the CLS (spec/44_control.md R151, which the spec marks derived;
the port is the model's, log 2). -/
def Obligations.ProgramsThatStartWithClsForgetTheState : Prop :=
  ∀ (s₁ s₂ : State) (program : List Instr), s₁.Running → s₂.Running → s₁.geom = s₂.geom →
    s₁.pending = .cls :: program → s₂.pending = .cls :: program → ∀ n : Nat,
    match runSteps (n + 1) s₁, runSteps (n + 1) s₂ with
    | .next t₁, .next t₂ => t₁.SameButLog t₂ ∧
        ∃ new, t₁.events = s₁.events ++ Event.clear :: new ∧ t₂.events = s₂.events ++ Event.clear :: new
    | .refused r₁, .refused r₂ => r₁ = r₂
    | _, _ => False

/-! ### Pixels -/

/-- PixelResolve is the formula of spec/20_memory.md R43 and spec/42_semigraphics.md R134, and it matches the valid pixels
one to one with the six bits 0..5 of every cell of the buffer (spec/20_memory.md R57). -/
def Obligations.PixelsAreTheSixBitsOfEachCell : Prop :=
  ∀ g : Geometry, g.Valid →
    (∀ x y : Int, inPixelRange g x y →
      (pixelCell g x y : Int) = y / 3 * (g.lineWidth : Int) + x / 2 ∧ (pixelBit x y : Int) = 2 * (y % 3) + x % 2 ∧
      pixelCell g x y < g.charsLen ∧ pixelBit x y < 6) ∧
    (∀ cell bit : Nat, cell < g.charsLen → bit < 6 →
      ∃ x y : Int, (inPixelRange g x y ∧ pixelCell g x y = cell ∧ pixelBit x y = bit) ∧
        ∀ x' y' : Int, inPixelRange g x' y' → pixelCell g x' y' = cell → pixelBit x' y' = bit → x' = x ∧ y' = y)

/-- SET turns one sub-pixel on: on a graphics cell the other seven bits stay, on a glyph cell only bit 7 and the sub-pixel
are on after; no other cell changes and at most one notification is sent (spec/42_semigraphics.md R130). The single
notification is the spec's decision D6 (log 8). -/
def Obligations.SetTurnsOneSubPixelOn : Prop :=
  ∀ (s : State) (x y : Int), s.Running → inPixelRange s.geom x y →
    let cell := pixelCell s.geom x y
    ∃ (t : State) (v : Byte), exec (.set x y) s = .next t ∧
      (∀ b, b < 8 → v.getLsbD b =
        (b == pixelBit x y || (if (readCell s cell).getLsbD 7 then (readCell s cell).getLsbD b else b == 7))) ∧
      (∀ k, readCell t k = if k = cell then v else readCell s k) ∧
      t.events = s.events ++ changeEvents s cell v ∧
      t.cursor = s.cursor ∧ s.KeepsControl t ∧ t.reply = some .done

/-- RESET turns one sub-pixel off: on a graphics cell the other seven bits stay, on a glyph cell only bit 7 is on after; no
other cell changes and at most one notification is sent (spec/42_semigraphics.md R131). The single notification is the
spec's decision D6 (log 8). -/
def Obligations.ResetTurnsOneSubPixelOff : Prop :=
  ∀ (s : State) (x y : Int), s.Running → inPixelRange s.geom x y →
    let cell := pixelCell s.geom x y
    ∃ (t : State) (v : Byte), exec (.reset x y) s = .next t ∧
      (∀ b, b < 8 → v.getLsbD b =
        (b != pixelBit x y && (if (readCell s cell).getLsbD 7 then (readCell s cell).getLsbD b else b == 7))) ∧
      (∀ k, readCell t k = if k = cell then v else readCell s k) ∧
      t.events = s.events ++ changeEvents s cell v ∧
      t.cursor = s.cursor ∧ s.KeepsControl t ∧ t.reply = some .done

/-- POINT answers false on a glyph cell, else the sub-pixel's bit, and changes nothing but the reply
(spec/42_semigraphics.md R132; the other coordinates raise, by the spec's decision D4). -/
def Obligations.PointAnswersTheSubPixel : Prop :=
  ∀ (s : State) (x y : Int), s.Running → inPixelRange s.geom x y →
    let v := readCell s (pixelCell s.geom x y)
    (v.getLsbD 7 = false → exec (.point x y) s = .next { s with reply := some (.truth false) }) ∧
    (v.getLsbD 7 = true →
      exec (.point x y) s = .next { s with reply := some (.truth (v.getLsbD (2 * (y % 3) + x % 2).toNat)) })

/-- Sub-pixels are independent: SET then POINT of a pixel answers true, RESET then POINT false, and neither changes what
POINT answers for any other pixel of the screen (spec/42_semigraphics.md R133, which the spec marks derived). -/
def Obligations.SubPixelsAreIndependent : Prop :=
  ∀ (s t u : State) (x y : Int), s.Running → inPixelRange s.geom x y →
    exec (.set x y) s = .next t → exec (.reset x y) s = .next u →
    exec (.point x y) t = .next { t with reply := some (.truth true) } ∧
    exec (.point x y) u = .next { u with reply := some (.truth false) } ∧
    ∀ x' y' : Int, inPixelRange s.geom x' y' → (x', y') ≠ (x, y) →
      ∃ b : Bool, exec (.point x' y') s = .next { s with reply := some (.truth b) } ∧
        exec (.point x' y') t = .next { t with reply := some (.truth b) } ∧
        exec (.point x' y') u = .next { u with reply := some (.truth b) }

/-! ### The memory window and the buffer commands -/

/-- The window translation is a plain offset inside the window and nothing outside it (spec/20_memory.md R41). -/
def Obligations.WindowTranslatesByAPlainOffset : Prop :=
  ∀ (g : Geometry) (addr : Int),
    (∀ k : Nat, translateAddr g addr = some k ↔ addr = 15360 + (k : Int) ∧ k < g.charsLen) ∧
    (translateAddr g addr = none ↔ addr < 15360 ∨ 15360 + (g.charsLen : Int) ≤ addr)

/-- PEEK answers the cell inside the window and 0 outside it, for every integer address, and changes nothing but the reply
(spec/43_memory_map.md R140, spec/20_memory.md R44). -/
def Obligations.PeekReadsTheWindowOrZero : Prop :=
  ∀ (s : State) (addr : Int), s.Running →
    (15360 ≤ addr → addr < 15360 + (s.geom.charsLen : Int) →
      exec (.peek addr) s = .next { s with reply := some (.code (readCell s (addr - 15360).toNat)) }) ∧
    (addr < 15360 ∨ 15360 + (s.geom.charsLen : Int) ≤ addr →
      exec (.peek addr) s = .next { s with reply := some (.code 0#8) })

/-- POKE writes the raw code to the cell inside the window, notifying once on a change, and does nothing outside it
(spec/20_memory.md R45). -/
def Obligations.PokeWritesTheWindowOrNothing : Prop :=
  ∀ (s : State) (addr : Int) (v : Byte), s.Running →
    (15360 ≤ addr → addr < 15360 + (s.geom.charsLen : Int) →
      let cell := (addr - 15360).toNat
      ∃ t, exec (.poke addr v) s = .next t ∧ (∀ k, readCell t k = if k = cell then v else readCell s k) ∧
        t.events = s.events ++ changeEvents s cell v ∧
        t.cursor = s.cursor ∧ s.KeepsControl t ∧ t.reply = some .done) ∧
    (addr < 15360 ∨ 15360 + (s.geom.charsLen : Int) ≤ addr →
      exec (.poke addr v) s = .next { s with reply := some .done })

/-- BUF_GET with a valid position answers the cell's code exactly and changes nothing but the reply
(spec/40_character_buffer.md R81; the other positions raise, by the spec's decision D4). -/
def Obligations.BufGetAnswersTheCell : Prop :=
  ∀ (s : State) (pos : Int), s.Running → 0 ≤ pos → pos < s.geom.charsLen →
    exec (.bufGet pos) s = .next { s with reply := some (.code (readCell s pos.toNat)) }

/-- BUF_SET with a valid position writes the raw code to that cell and no other, and notifies once on a change
(spec/40_character_buffer.md R80, R82; the other positions raise, by the spec's decision D4). -/
def Obligations.BufSetWritesTheCell : Prop :=
  ∀ (s : State) (pos : Int) (v : Byte), s.Running → 0 ≤ pos → pos < s.geom.charsLen →
    ∃ t, exec (.bufSet pos v) s = .next t ∧ (∀ k, readCell t k = if k = pos.toNat then v else readCell s k) ∧
      t.events = s.events ++ changeEvents s pos.toNat v ∧
      t.cursor = s.cursor ∧ s.KeepsControl t ∧ t.reply = some .done

/-- The window and the buffer are the same cells: inside the window POKE acts as BUF_SET and PEEK as BUF_GET, and PEEK after
POKE answers the code poked (spec/43_memory_map.md R142, spec/20_memory.md R57, which the spec marks derived). -/
def Obligations.WindowAndBufferAreTheSameCells : Prop :=
  ∀ (s : State) (k : Nat) (v : Byte), s.Running → k < s.geom.charsLen →
    exec (.poke (15360 + (k : Int)) v) s = exec (.bufSet k v) s ∧
    exec (.peek (15360 + (k : Int))) s = exec (.bufGet k) s ∧
    ∃ t, exec (.poke (15360 + (k : Int)) v) s = .next t ∧
      exec (.peek (15360 + (k : Int))) t = .next { t with reply := some (.code v) } ∧
      exec (.bufGet k) t = .next { t with reply := some (.code v) }

/-- Reads have no side effects. Writes are idempotent: writing a cell's current code changes nothing and sends nothing, and
repeating any write of one cell or one pixel only answers again. A write that completes goes to the cell its operand
names and to no other, and its one side effect is that cell's `CellChanged` (spec/20_memory.md R49, spec/40_character_buffer.md
R80). A write that completes is one that does not raise, by the spec's decision D4 (log 6); that SET and RESET send one
notification, even on a glyph cell, is its decision D6 (log 8). -/
def Obligations.ReadsArePureAndWritesIdempotent : Prop :=
  ∀ s : State, s.Running →
    (∀ (i : Instr) (t : State), exec i s = .next t → t.fault = none →
      (∃ a, i = .peek a) ∨ (∃ p, i = .bufGet p) ∨ (∃ x y, i = .point x y) → ∃ r, t = { s with reply := some r }) ∧
    (∀ (k : Nat) (v : Byte), k < s.geom.charsLen → readCell s k = v →
      exec (.bufSet k v) s = .next { s with reply := some .done } ∧
      exec (.poke (15360 + (k : Int)) v) s = .next { s with reply := some .done }) ∧
    (∀ (i : Instr) (t : State) (cell : Nat), exec i s = .next t → t.fault = none →
      (∃ a v, i = .poke a v ∧ translateAddr s.geom a = some cell) ∨ (∃ p v, i = .bufSet p v ∧ cell = p.toNat) ∨
        (∃ x y, (i = .set x y ∨ i = .reset x y) ∧ cell = pixelCell s.geom x y) →
      exec i t = .next t ∧
        (t = { s with reply := some .done } ∨
          readCell t cell ≠ readCell s cell ∧ (∀ k, k ≠ cell → readCell t k = readCell s k) ∧
            t.events = s.events ++ [Event.cellChanged cell (readCell s cell) (readCell t cell)] ∧
            t.cursor = s.cursor ∧ s.KeepsControl t ∧ t.reply = some .done)) ∧
    (∀ (a : Int) (v : Byte), translateAddr s.geom a = none → exec (.poke a v) s = .next { s with reply := some .done })

/-! ### OutOfRange -/

/-- Each range-checked command raises OutOfRange on an operand outside its domain: the record with its operands is latched,
the host gets the faulted outcome, and nothing else changes (spec/60_exceptions.md R161, R162, R163). The absence of
effects and the latch are the spec's decision D4 (log 6), the record D18 (log 21). -/
def Obligations.RangeViolationsLatchTheFault : Prop :=
  ∀ (s : State), s.Running →
    (∀ pos : Int, pos < 0 ∨ (s.geom.charsLen : Int) ≤ pos →
      exec (.bufGet pos) s =
        .next { s with fault := some (.bufGet pos), reply := some (.outOfRange (.bufGet pos)) } ∧
      (∀ v, exec (.bufSet pos v) s =
        .next { s with fault := some (.bufSet pos), reply := some (.outOfRange (.bufSet pos)) }) ∧
      (∀ codes, exec (.printAt pos codes) s =
        .next { s with fault := some (.printAt pos), reply := some (.outOfRange (.printAt pos)) })) ∧
    (∀ n : Int, n < 0 ∨ 64 ≤ n →
      exec (.tab n) s = .next { s with fault := some (.tab n), reply := some (.outOfRange (.tab n)) }) ∧
    (∀ x y : Int, x < 0 ∨ 2 * (s.geom.lineWidth : Int) ≤ x ∨ y < 0 ∨ 3 * (s.geom.lineCount : Int) ≤ y →
      exec (.set x y) s = .next { s with fault := some (.set x y), reply := some (.outOfRange (.set x y)) } ∧
      exec (.reset x y) s = .next { s with fault := some (.reset x y), reply := some (.outOfRange (.reset x y)) } ∧
      exec (.point x y) s = .next { s with fault := some (.point x y), reply := some (.outOfRange (.point x y)) })

/-- Nothing but those range violations raises: an instruction that leaves a running block faulted is one of the seven with
an operand out of range, the record names it, and it has changed neither buffer, cursor nor notifications
(spec/60_exceptions.md R160, R161, R162; the latch is the spec's decision D4). -/
def Obligations.OnlyRangeViolationsRaise : Prop :=
  ∀ (i : Instr) (s t : State) (r : OutOfRange), s.Running → exec i s = .next t → t.fault = some r →
    t = { s with fault := some r, reply := some (.outOfRange r) } ∧ r.Genuine s.geom ∧
    ((∃ p, i = .bufGet p ∧ r = .bufGet p) ∨ (∃ p v, i = .bufSet p v ∧ r = .bufSet p) ∨
     (∃ p codes, i = .printAt p codes ∧ r = .printAt p) ∨ (∃ n, i = .tab n ∧ r = .tab n) ∨
     (∃ x y, i = .set x y ∧ r = .set x y) ∨ (∃ x y, i = .reset x y ∧ r = .reset x y) ∨
     (∃ x y, i = .point x y ∧ r = .point x y))

/-- No other failure mode exists: in a running block every instruction answers a next state (spec/60_exceptions.md R160). -/
def Obligations.EveryInstructionAnswersInARunningBlock : Prop :=
  ∀ (i : Instr) (s : State), s.Running → ∃ t, exec i s = .next t ∧ t.geom = s.geom ∧ t.pending = s.pending

/-- A faulted block refuses every instruction and stays as it is for any number of steps
(spec/60_exceptions.md R164; the refusal is the spec's decision D5, log 7). -/
def Obligations.FaultedBlockIsQuiescent : Prop :=
  ∀ (s : State) (r : OutOfRange), s.fault = some r →
    (∀ i : Instr, exec i s = .refused .blockFaulted) ∧
    (∀ (n : Nat) (t : State), runSteps n s = .next t → t = s)

/-! ### The cursor's range and the notification history -/

/-- Every stream action, PRINT and PRINT_AT completes and leaves the cursor in `[0, CHARS_LEN)`, from every cursor in that
range; PRINT_AT with a valid position does so from any cursor (spec/41_cursor_fsm.md R108, which the spec marks derived;
the value each action gives the cursor is in the statements about it). -/
def Obligations.StreamActionsAndPrintingKeepTheCursorInRange : Prop :=
  ∀ s : State, s.Running → s.geom.Valid →
    (inCursorRange s.geom s.cursor → ∀ i : Instr, i.isCommand = false ∨ (∃ codes, i = .print codes) ∨
        (∃ pos codes, i = .printAt pos codes) →
      ∃ t, exec i s = .next t ∧ t.geom = s.geom ∧ inCursorRange t.geom t.cursor) ∧
    (∀ (pos : Int) (codes : List Byte), inBufRange s.geom pos →
      ∃ t, exec (.printAt pos codes) s = .next t ∧ t.geom = s.geom ∧ inCursorRange t.geom t.cursor)

/-- No step looks at the notifications sent before it: from two states that only that history tells apart, a step answers
two such states with the same new notifications, or refuses both for the same reason (spec/10_state.md R26: the log is
what the block sent; spec/44_control.md R150: it records the port's history; log 23). -/
def Obligations.NoStepLooksAtTheNotificationHistory : Prop :=
  ∀ s₁ s₂ : State, s₁.SameButLog s₂ →
    match step s₁, step s₂ with
    | .next t₁, .next t₂ => t₁.SameButLog t₂ ∧
        ∃ new, t₁.events = s₁.events ++ new ∧ t₂.events = s₂.events ++ new
    | .refused r₁, .refused r₂ => r₁ = r₂
    | _, _ => False
end

