-- ==== Sys2Proof/Laws/Memory.lean ====
section
/-! SUPPORT. The laws of the cell store: what a write and a scroll leave in each cell, that every operation keeps the
canonical form and the bound on indices, and that a canonical store is determined by its cells. -/

namespace Sys2Proof.Machine

@[simp] theorem Memory.read_nil (k : Nat) : Memory.read [] k = Config.blank := rfl

@[simp] theorem Memory.read_cons (a : Nat) (v : Byte) (m : Memory) (k : Nat) :
    Memory.read ((a, v) :: m) k = if a = k then v else Memory.read m k := rfl

/-- A cell below every listed index is not listed. -/
theorem Memory.read_of_not_listed (m : Memory) (k : Nat) (h : ∀ c ∈ m, c.1 ≠ k) : m.read k = Config.blank := by
  induction m with
  | nil => rfl
  | cons c m ih =>
    obtain ⟨a, v⟩ := c
    have ha : a ≠ k := h (a, v) (by simp)
    simp only [read_cons, if_neg ha]
    exact ih fun c hc => h c (List.mem_cons_of_mem _ hc)

theorem Memory.read_erase (m : Memory) (k j : Nat) :
    (m.erase k).read j = if j = k then Config.blank else m.read j := by
  induction m with
  | nil => simp [Memory.erase]
  | cons c m ih =>
    obtain ⟨a, v⟩ := c
    simp only [Memory.erase, List.filter_cons] at ih ⊢
    by_cases hak : a = k
    · subst hak
      simp only [ne_eq, not_true_eq_false, decide_false, Bool.false_eq_true, if_false, ih, read_cons]
      by_cases hj : j = a
      · simp [hj]
      · simp [hj, Ne.symm hj]
    · simp only [ne_eq, hak, not_false_eq_true, decide_true, if_true, read_cons, ih]
      by_cases haj : a = j
      · subst haj; simp [hak]
      · simp [haj]

theorem Memory.mem_erase {m : Memory} {k : Nat} {c : Host.Cell} : c ∈ m.erase k ↔ c ∈ m ∧ c.1 ≠ k := by
  simp [Memory.erase]

theorem Memory.mem_insert {m : Memory} {k : Nat} {v : Byte} {c : Host.Cell} :
    c ∈ m.insert k v ↔ c = (k, v) ∨ c ∈ m := by
  induction m with
  | nil => simp [Memory.insert]
  | cons d m ih =>
    simp only [Memory.insert]
    split
    · simp
    · simp only [List.mem_cons, ih]; tauto

theorem Memory.read_insert (m : Memory) (k j : Nat) (v : Byte) (h : ∀ c ∈ m, c.1 ≠ k) :
    (m.insert k v).read j = if j = k then v else m.read j := by
  induction m with
  | nil => simp [Memory.insert, eq_comm]
  | cons c m ih =>
    obtain ⟨a, w⟩ := c
    have ha : a ≠ k := h (a, w) (by simp)
    have hm := ih fun c hc => h c (List.mem_cons_of_mem _ hc)
    simp only [Memory.insert]
    split
    · simp [eq_comm]
    · simp only [read_cons, hm]
      by_cases haj : a = j
      · subst haj; simp [ha]
      · simp [haj]

/-- Read after write, at the written cell and at every other. -/
theorem Memory.read_write (m : Memory) (k j : Nat) (v : Byte) :
    (m.write k v).read j = if j = k then v else m.read j := by
  unfold Memory.write
  split
  · rename_i hv
    rw [read_erase, hv]; rfl
  · rw [read_insert _ _ _ _ fun c hc => (mem_erase.mp hc).2, read_erase]
    by_cases hj : j = k <;> simp [hj]

theorem Memory.erase_wf {m : Memory} (k : Nat) (h : m.wf) : (m.erase k).wf :=
  ⟨h.1.filter _, fun c hc => h.2 c (mem_erase.mp hc).1⟩

theorem Memory.insert_wf {m : Memory} {k : Nat} {v : Byte} (h : m.wf) (hk : ∀ c ∈ m, c.1 ≠ k)
    (hv : v ≠ Memory.unlisted) : (m.insert k v).wf := by
  refine ⟨?_, fun c hc => ?_⟩
  · obtain ⟨hp, -⟩ := h
    induction m with
    | nil => simp [Memory.insert]
    | cons d m ih =>
      have hd : d.1 ≠ k := hk d (by simp)
      rw [List.pairwise_cons] at hp
      simp only [Memory.insert]
      split
      · rename_i hlt
        rw [List.pairwise_cons]
        refine ⟨fun c hc => ?_, List.pairwise_cons.mpr hp⟩
        rcases List.mem_cons.mp hc with rfl | hc
        · exact hlt
        · exact Nat.lt_trans hlt (hp.1 c hc)
      · rename_i hlt
        rw [List.pairwise_cons]
        refine ⟨fun c hc => ?_, ih (fun c hc => hk c (List.mem_cons_of_mem _ hc)) hp.2⟩
        rcases mem_insert.mp hc with rfl | hc
        · show d.1 < k
          have : ¬ k < d.1 := hlt
          omega
        · exact hp.1 c hc
  · rcases mem_insert.mp hc with rfl | hc
    · exact hv
    · exact h.2 c hc

/-- A write keeps the canonical form. -/
theorem Memory.write_wf {m : Memory} (k : Nat) (v : Byte) (h : m.wf) : (m.write k v).wf := by
  unfold Memory.write
  split
  · exact erase_wf k h
  · exact insert_wf (erase_wf k h) (fun c hc => (mem_erase.mp hc).2) ‹_›

/-- A write below the bound keeps the bound. -/
theorem Memory.write_within {m : Memory} {n k : Nat} (v : Byte) (h : m.within n) (hk : k < n) :
    (m.write k v).within n := by
  intro c hc
  unfold Memory.write at hc
  split at hc
  · exact h c (mem_erase.mp hc).1
  · rcases mem_insert.mp hc with rfl | hc
    · exact hk
    · exact h c (mem_erase.mp hc).1

theorem Memory.mem_scrolled {m : Memory} {g : Geometry} {c : Host.Cell} :
    c ∈ m.scrolled g ↔ ∃ d ∈ m, (g.lineWidth ≤ d.1 ∧ d.1 < g.charsLen) ∧ (d.1 - g.lineWidth, d.2) = c := by
  simp only [Memory.scrolled, List.mem_filterMap]
  constructor
  · rintro ⟨d, hd, h⟩
    split at h
    · exact ⟨d, hd, ‹_›, Option.some.inj h⟩
    · cases h
  · rintro ⟨d, hd, hr, rfl⟩
    exact ⟨d, hd, if_pos hr⟩

/-- What a scroll leaves in each cell: the cell one row below, and BLANK in the last row and beyond. -/
theorem Memory.read_scrolled (m : Memory) (g : Geometry) (k : Nat) :
    (m.scrolled g).read k = if k + g.lineWidth < g.charsLen then m.read (k + g.lineWidth) else Config.blank := by
  induction m with
  | nil => simp [Memory.scrolled]
  | cons c m ih =>
    obtain ⟨a, v⟩ := c
    simp only [Memory.scrolled, List.filterMap_cons] at ih ⊢
    by_cases hr : g.lineWidth ≤ a ∧ a < g.charsLen
    · simp only [if_pos hr, read_cons, ih]
      by_cases hk : a = k + g.lineWidth
      · have : a - g.lineWidth = k := by omega
        rw [if_pos this, if_pos (by omega), if_pos hk]
      · have : a - g.lineWidth ≠ k := by omega
        rw [if_neg this, if_neg hk]
    · simp only [if_neg hr, read_cons, ih]
      by_cases hk : k + g.lineWidth < g.charsLen
      · rw [if_pos hk, if_pos hk, if_neg (by omega)]
      · rw [if_neg hk, if_neg hk]

/-- A scroll keeps the canonical form. -/
theorem Memory.scrolled_wf {m : Memory} (g : Geometry) (h : m.wf) : (m.scrolled g).wf := by
  refine ⟨?_, fun c hc => ?_⟩
  · refine List.Pairwise.filterMap _ (fun a b hab c hc d hd => ?_) h.1
    simp only [Option.ite_none_right_eq_some, Option.some.injEq] at hc hd
    obtain ⟨hc, rfl⟩ := hc
    obtain ⟨hd, rfl⟩ := hd
    simp only
    omega
  · obtain ⟨d, hd, -, rfl⟩ := mem_scrolled.mp hc
    exact h.2 d hd

/-- A scroll keeps every index in the buffer. -/
theorem Memory.scrolled_within (m : Memory) (g : Geometry) : (m.scrolled g).within g.charsLen := by
  intro c hc
  obtain ⟨d, -, hr, rfl⟩ := mem_scrolled.mp hc
  simp only
  omega

/-- A listed cell of a canonical store reads as it is listed. -/
theorem Memory.read_of_mem {m : Memory} (h : m.wf) {c : Host.Cell} (hc : c ∈ m) : m.read c.1 = c.2 := by
  obtain ⟨hp, -⟩ := h
  induction m with
  | nil => cases hc
  | cons d m ih =>
    obtain ⟨a, v⟩ := d
    rw [List.pairwise_cons] at hp
    rcases List.mem_cons.mp hc with rfl | hc
    · simp
    · have : a < c.1 := hp.1 c hc
      rw [read_cons, if_neg (by omega)]
      exact ih hc hp.2

/-- A canonical store is determined by its cells: equal cells, equal data. -/
theorem Memory.eq_of_read_eq {m n : Memory} (hm : m.wf) (hn : n.wf) (h : ∀ k, m.read k = n.read k) : m = n := by
  have listed : ∀ {m n : Memory}, m.wf → n.wf → (∀ k, m.read k = n.read k) → ∀ c ∈ m, c ∈ n := by
    intro m n hm hn h c hc
    by_contra hcn
    have hr : n.read c.1 = c.2 := by rw [← h, read_of_mem hm hc]
    by_cases hl : ∃ d ∈ n, d.1 = c.1
    · obtain ⟨d, hd, hdc⟩ := hl
      have : n.read d.1 = d.2 := read_of_mem hn hd
      rw [hdc, hr] at this
      exact hcn (by rwa [show c = d from Prod.ext hdc.symm this])
    · have : n.read c.1 = Config.blank := read_of_not_listed n c.1 fun d hd hdc => hl ⟨d, hd, hdc⟩
      rw [hr] at this
      exact hm.2 c hc this
  have nodup : ∀ {m : Memory}, m.wf → m.Nodup := fun h => h.1.imp fun hab heq => by
    rw [heq] at hab; exact Nat.lt_irrefl _ hab
  refine List.Perm.eq_of_pairwise (le := fun a b : Host.Cell => a.1 < b.1) (fun a b _ _ hab hba => ?_) hm.1 hn.1
    ((List.perm_ext_iff_of_nodup (nodup hm) (nodup hn)).mpr fun c =>
      ⟨listed hm hn h c, listed hn hm (fun k => (h k).symm) c⟩)
  omega

end Sys2Proof.Machine
end

