-- ==== Sys2Proof/Laws/State.lean ====
section
/-! SUPPORT. What each named update of the state does to each field, true by definition. -/

namespace Sys2Proof.Machine

@[simp] theorem State.withBuf_geom (s : State) (m : Memory) : (s.withBuf m).geom = s.geom := rfl
@[simp] theorem State.withBuf_buf (s : State) (m : Memory) : (s.withBuf m).buf = m := rfl
@[simp] theorem State.withBuf_cursor (s : State) (m : Memory) : (s.withBuf m).cursor = s.cursor := rfl
@[simp] theorem State.withBuf_fault (s : State) (m : Memory) : (s.withBuf m).fault = s.fault := rfl
@[simp] theorem State.withBuf_events (s : State) (m : Memory) : (s.withBuf m).events = s.events := rfl
@[simp] theorem State.withBuf_pending (s : State) (m : Memory) : (s.withBuf m).pending = s.pending := rfl
@[simp] theorem State.withBuf_reply (s : State) (m : Memory) : (s.withBuf m).reply = s.reply := rfl

@[simp] theorem State.withCursor_geom (s : State) (c : Nat) : (s.withCursor c).geom = s.geom := rfl
@[simp] theorem State.withCursor_buf (s : State) (c : Nat) : (s.withCursor c).buf = s.buf := rfl
@[simp] theorem State.withCursor_cursor (s : State) (c : Nat) : (s.withCursor c).cursor = c := rfl
@[simp] theorem State.withCursor_fault (s : State) (c : Nat) : (s.withCursor c).fault = s.fault := rfl
@[simp] theorem State.withCursor_events (s : State) (c : Nat) : (s.withCursor c).events = s.events := rfl
@[simp] theorem State.withCursor_pending (s : State) (c : Nat) : (s.withCursor c).pending = s.pending := rfl
@[simp] theorem State.withCursor_reply (s : State) (c : Nat) : (s.withCursor c).reply = s.reply := rfl

@[simp] theorem State.withFault_geom (s : State) (r : OutOfRange) : (s.withFault r).geom = s.geom := rfl
@[simp] theorem State.withFault_buf (s : State) (r : OutOfRange) : (s.withFault r).buf = s.buf := rfl
@[simp] theorem State.withFault_cursor (s : State) (r : OutOfRange) : (s.withFault r).cursor = s.cursor := rfl
@[simp] theorem State.withFault_fault (s : State) (r : OutOfRange) : (s.withFault r).fault = some r := rfl
@[simp] theorem State.withFault_events (s : State) (r : OutOfRange) : (s.withFault r).events = s.events := rfl
@[simp] theorem State.withFault_pending (s : State) (r : OutOfRange) : (s.withFault r).pending = s.pending := rfl
@[simp] theorem State.withFault_reply (s : State) (r : OutOfRange) : (s.withFault r).reply = s.reply := rfl

@[simp] theorem State.withEvent_geom (s : State) (e : Event) : (s.withEvent e).geom = s.geom := rfl
@[simp] theorem State.withEvent_buf (s : State) (e : Event) : (s.withEvent e).buf = s.buf := rfl
@[simp] theorem State.withEvent_cursor (s : State) (e : Event) : (s.withEvent e).cursor = s.cursor := rfl
@[simp] theorem State.withEvent_fault (s : State) (e : Event) : (s.withEvent e).fault = s.fault := rfl
@[simp] theorem State.withEvent_events (s : State) (e : Event) : (s.withEvent e).events = s.events ++ [e] := rfl
@[simp] theorem State.withEvent_pending (s : State) (e : Event) : (s.withEvent e).pending = s.pending := rfl
@[simp] theorem State.withEvent_reply (s : State) (e : Event) : (s.withEvent e).reply = s.reply := rfl

@[simp] theorem State.withPending_geom (s : State) (p : List Instr) : (s.withPending p).geom = s.geom := rfl
@[simp] theorem State.withPending_buf (s : State) (p : List Instr) : (s.withPending p).buf = s.buf := rfl
@[simp] theorem State.withPending_cursor (s : State) (p : List Instr) : (s.withPending p).cursor = s.cursor := rfl
@[simp] theorem State.withPending_fault (s : State) (p : List Instr) : (s.withPending p).fault = s.fault := rfl
@[simp] theorem State.withPending_events (s : State) (p : List Instr) : (s.withPending p).events = s.events := rfl
@[simp] theorem State.withPending_pending (s : State) (p : List Instr) : (s.withPending p).pending = p := rfl
@[simp] theorem State.withPending_reply (s : State) (p : List Instr) : (s.withPending p).reply = s.reply := rfl

@[simp] theorem State.withReply_geom (s : State) (r : Reply) : (s.withReply r).geom = s.geom := rfl
@[simp] theorem State.withReply_buf (s : State) (r : Reply) : (s.withReply r).buf = s.buf := rfl
@[simp] theorem State.withReply_cursor (s : State) (r : Reply) : (s.withReply r).cursor = s.cursor := rfl
@[simp] theorem State.withReply_fault (s : State) (r : Reply) : (s.withReply r).fault = s.fault := rfl
@[simp] theorem State.withReply_events (s : State) (r : Reply) : (s.withReply r).events = s.events := rfl
@[simp] theorem State.withReply_pending (s : State) (r : Reply) : (s.withReply r).pending = s.pending := rfl
@[simp] theorem State.withReply_reply (s : State) (r : Reply) : (s.withReply r).reply = some r := rfl

@[simp] theorem State.fresh_geom (g : Geometry) : (State.fresh g).geom = g := rfl
@[simp] theorem State.fresh_buf (g : Geometry) : (State.fresh g).buf = [] := rfl
@[simp] theorem State.fresh_cursor (g : Geometry) : (State.fresh g).cursor = 0 := rfl
@[simp] theorem State.fresh_fault (g : Geometry) : (State.fresh g).fault = none := rfl
@[simp] theorem State.fresh_events (g : Geometry) : (State.fresh g).events = [] := rfl
@[simp] theorem State.fresh_pending (g : Geometry) : (State.fresh g).pending = [] := rfl
@[simp] theorem State.fresh_reply (g : Geometry) : (State.fresh g).reply = none := rfl

/-- A state is its seven fields. -/
theorem State.eq_of_fields (s t : State) (hg : s.geom = t.geom) (hb : s.buf = t.buf) (hc : s.cursor = t.cursor)
    (hf : s.fault = t.fault) (he : s.events = t.events) (hp : s.pending = t.pending) (hr : s.reply = t.reply) :
    s = t := by
  cases s; cases t; simp_all

end Sys2Proof.Machine
end

