-- ==== Sys2Proof/Laws/Ops.lean ====
section
/-! SUPPORT. What each shared operation does, said once: the fields it leaves alone, the cells it leaves, the
notifications it sends, and that it keeps the canonical form of the buffer. Cite these instead of unfolding. -/

namespace Sys2Proof.Machine

/-! ### Update -/

@[simp] theorem update_geom (i : Nat) (v : Byte) (s : State) : (update i v s).geom = s.geom := by
  unfold update; split <;> rfl
@[simp] theorem update_cursor (i : Nat) (v : Byte) (s : State) : (update i v s).cursor = s.cursor := by
  unfold update; split <;> rfl
@[simp] theorem update_fault (i : Nat) (v : Byte) (s : State) : (update i v s).fault = s.fault := by
  unfold update; split <;> rfl
@[simp] theorem update_pending (i : Nat) (v : Byte) (s : State) : (update i v s).pending = s.pending := by
  unfold update; split <;> rfl
@[simp] theorem update_reply (i : Nat) (v : Byte) (s : State) : (update i v s).reply = s.reply := by
  unfold update; split <;> rfl

/-- `Update` writes one cell and no other. -/
theorem readCell_update (i : Nat) (v : Byte) (s : State) (k : Nat) :
    readCell (update i v s) k = if k = i then v else readCell s k := by
  unfold update
  split
  · rename_i h
    split
    · rename_i hk; rw [hk, h]
    · rfl
  · exact Memory.read_write s.buf i k v

/-- `Update` notifies once on a change and not at all otherwise. -/
theorem update_events (i : Nat) (v : Byte) (s : State) :
    (update i v s).events =
      s.events ++ if readCell s i = v then [] else [Event.cellChanged i (readCell s i) v] := by
  unfold update
  split <;> simp [emit]

theorem update_wf (i : Nat) (v : Byte) (s : State) (h : Memory.wf s.buf) : Memory.wf (update i v s).buf := by
  unfold update
  split
  · exact h
  · exact Memory.write_wf i v h

theorem update_within (i : Nat) (v : Byte) (s : State) {n : Nat} (h : Memory.within n s.buf) (hi : i < n) :
    Memory.within n (update i v s).buf := by
  unfold update
  split
  · exact h
  · exact Memory.write_within v h hi

/-- Writing a cell's own code does nothing. -/
theorem update_of_read_eq (i : Nat) (v : Byte) (s : State) (h : readCell s i = v) : update i v s = s := if_pos h

/-! ### Blanking -/

@[simp] theorem blankFrom_geom (a n : Nat) (s : State) : (blankFrom a n s).geom = s.geom := by
  induction n generalizing a s <;> simp [blankFrom, *]
@[simp] theorem blankFrom_cursor (a n : Nat) (s : State) : (blankFrom a n s).cursor = s.cursor := by
  induction n generalizing a s <;> simp [blankFrom, *]
@[simp] theorem blankFrom_fault (a n : Nat) (s : State) : (blankFrom a n s).fault = s.fault := by
  induction n generalizing a s <;> simp [blankFrom, *]
@[simp] theorem blankFrom_pending (a n : Nat) (s : State) : (blankFrom a n s).pending = s.pending := by
  induction n generalizing a s <;> simp [blankFrom, *]
@[simp] theorem blankFrom_reply (a n : Nat) (s : State) : (blankFrom a n s).reply = s.reply := by
  induction n generalizing a s <;> simp [blankFrom, *]

/-- Blanking blanks its range and no other cell. -/
theorem readCell_blankFrom (a n : Nat) (s : State) (k : Nat) :
    readCell (blankFrom a n s) k = if a ≤ k ∧ k < a + n then Config.blank else readCell s k := by
  induction n generalizing a s with
  | zero => rw [if_neg (by omega)]; rfl
  | succ n ih =>
    rw [blankFrom, ih, readCell_update]
    by_cases h : a + 1 ≤ k ∧ k < a + 1 + n
    · rw [if_pos h, if_pos (by omega)]
    · rw [if_neg h]
      by_cases hk : k = a
      · rw [if_pos hk, if_pos (by omega)]
      · rw [if_neg hk, if_neg (by omega)]

/-- Blanking notifies of each cell that was not blank, lowest index first. -/
theorem blankFrom_events (a n : Nat) (s : State) : (blankFrom a n s).events = s.events ++ blankEvents s a n := by
  induction n generalizing a s with
  | zero => simp [blankFrom, blankEvents]
  | succ n ih =>
    have later : blankEvents (update a Config.blank s) (a + 1) n = blankEvents s (a + 1) n := by
      unfold blankEvents
      have same : ∀ k ∈ List.range' (a + 1) n, readCell (update a Config.blank s) k = readCell s k := by
        intro k hk
        have : a + 1 ≤ k := (List.mem_range'_1.mp hk).1
        rw [readCell_update, if_neg (by omega)]
      rw [List.filter_congr fun k hk => by rw [same k hk]]
      exact List.map_congr_left fun k hk => by rw [same k (List.mem_filter.mp hk).1]
    rw [blankFrom, ih, update_events, later, List.append_assoc]
    congr 1
    unfold blankEvents
    rw [List.range'_succ, List.filter_cons]
    by_cases h : readCell s a = Config.blank <;> simp [h]

theorem blankFrom_wf (a n : Nat) (s : State) (h : Memory.wf s.buf) : Memory.wf (blankFrom a n s).buf := by
  induction n generalizing a s with
  | zero => exact h
  | succ n ih => exact ih (a + 1) _ (update_wf a Config.blank s h)

theorem blankFrom_within (a n : Nat) (s : State) {m : Nat} (h : Memory.within m s.buf) (hn : a + n ≤ m) :
    Memory.within m (blankFrom a n s).buf := by
  induction n generalizing a s with
  | zero => exact h
  | succ n ih => exact ih (a + 1) _ (update_within a Config.blank s h (by omega)) (by omega)

@[simp] theorem blankRange_geom (a b : Nat) (s : State) : (blankRange a b s).geom = s.geom := blankFrom_geom ..
@[simp] theorem blankRange_cursor (a b : Nat) (s : State) : (blankRange a b s).cursor = s.cursor := blankFrom_cursor ..
@[simp] theorem blankRange_fault (a b : Nat) (s : State) : (blankRange a b s).fault = s.fault := blankFrom_fault ..
@[simp] theorem blankRange_pending (a b : Nat) (s : State) : (blankRange a b s).pending = s.pending :=
  blankFrom_pending ..
@[simp] theorem blankRange_reply (a b : Nat) (s : State) : (blankRange a b s).reply = s.reply := blankFrom_reply ..

/-- `BlankRange(a, b)` blanks the cells `a` to `b - 1` and no other. -/
theorem readCell_blankRange (a b : Nat) (s : State) (k : Nat) :
    readCell (blankRange a b s) k = if a ≤ k ∧ k < b then Config.blank else readCell s k := by
  rw [blankRange, readCell_blankFrom]
  exact if_congr (by omega) rfl rfl

theorem blankRange_events (a b : Nat) (s : State) :
    (blankRange a b s).events = s.events ++ blankEvents s a (b - a) := blankFrom_events ..

/-! ### Scroll and clear -/

@[simp] theorem scroll_geom (s : State) : (scroll s).geom = s.geom := rfl
@[simp] theorem scroll_cursor (s : State) : (scroll s).cursor = s.cursor := rfl
@[simp] theorem scroll_fault (s : State) : (scroll s).fault = s.fault := rfl
@[simp] theorem scroll_pending (s : State) : (scroll s).pending = s.pending := rfl
@[simp] theorem scroll_reply (s : State) : (scroll s).reply = s.reply := rfl
@[simp] theorem scroll_events (s : State) : (scroll s).events = s.events ++ [Event.scroll] := rfl

/-- `Scroll` moves every row up by one and blanks the bottom row. -/
theorem readCell_scroll (s : State) (k : Nat) :
    readCell (scroll s) k =
      if k + s.geom.lineWidth < s.geom.charsLen then readCell s (k + s.geom.lineWidth) else Config.blank :=
  Memory.read_scrolled s.buf s.geom k

theorem scroll_wf (s : State) (h : Memory.wf s.buf) : Memory.wf (scroll s).buf := Memory.scrolled_wf s.geom h

theorem scroll_within (s : State) : Memory.within s.geom.charsLen (scroll s).buf := Memory.scrolled_within s.buf s.geom

@[simp] theorem readCell_withCursor (s : State) (c k : Nat) : readCell (s.withCursor c) k = readCell s k := rfl
@[simp] theorem readCell_withReply (s : State) (r : Reply) (k : Nat) : readCell (s.withReply r) k = readCell s k := rfl
@[simp] theorem readCell_withFault (s : State) (r : OutOfRange) (k : Nat) :
    readCell (s.withFault r) k = readCell s k := rfl
@[simp] theorem readCell_withPending (s : State) (p : List Instr) (k : Nat) :
    readCell (s.withPending p) k = readCell s k := rfl
@[simp] theorem readCell_clearScreen (s : State) (k : Nat) : readCell (clearScreen s) k = Config.blank := rfl

/-! ### Accepting, completing, raising -/

/-- A running block accepts the command. -/
theorem accept_running (s : State) (body : State → Exec) (h : s.Running) : accept s body = body s := by
  rw [accept, h]

/-- A faulted block refuses the command. -/
theorem accept_faulted (s : State) (body : State → Exec) {r : OutOfRange} (h : s.fault = some r) :
    accept s body = .refused .blockFaulted := by
  rw [accept, h]

/-- An accepted command that answers a next state started in a running block. -/
theorem accept_next {s t : State} {body : State → Exec} (h : accept s body = .next t) :
    s.Running ∧ body s = .next t := by
  unfold accept at h
  split at h
  · exact ⟨‹_›, h⟩
  · cases h

theorem complete_next {s t : State} {r : Reply} : complete r s = .next t ↔ t = s.withReply r := by
  rw [complete, Host.Outcome.next.injEq, eq_comm]

theorem raiseOutOfRange_next {s t : State} {r : OutOfRange} :
    raiseOutOfRange r s = .next t ↔ t = (s.withFault r).withReply (.outOfRange r) := by
  rw [raiseOutOfRange, Host.Outcome.next.injEq, eq_comm]

/-! ### The window and the pixels -/

theorem translateAddr_some {g : Geometry} {addr : Int} {k : Nat} (h : translateAddr g addr = some k) :
    k < g.charsLen ∧ addr = Config.videoBase + k := by
  unfold translateAddr at h
  split at h
  · cases h; omega
  · cases h

theorem translateAddr_window (g : Geometry) (k : Nat) (h : k < g.charsLen) :
    translateAddr g (Config.videoBase + k) = some k := by
  unfold translateAddr
  rw [if_pos (by omega)]
  congr 1
  omega

/-- A valid pixel lies in a cell of the buffer. -/
theorem pixelCell_lt {g : Geometry} {x y : Int} (h : inPixelRange g x y) : pixelCell g x y < g.charsLen := by
  obtain ⟨⟨hx0, hx⟩, hy0, hy⟩ := h
  unfold Geometry.pixW at hx
  unfold Geometry.pixH at hy
  have hrow : y.toNat / 3 + 1 ≤ g.lineCount := by omega
  have hcol : x.toNat / 2 < g.lineWidth := by omega
  have := Nat.mul_le_mul_right g.lineWidth hrow
  unfold pixelCell Geometry.charsLen
  rw [Nat.add_mul, Nat.mul_comm g.lineCount] at this
  omega

theorem pixelBit_lt (x y : Int) : pixelBit x y < 6 := by unfold pixelBit; omega

end Sys2Proof.Machine
end

