-- ==== Sys2Proof/Laws/Cursor.lean ====
section
/-! SUPPORT. The cursor state machine: its arithmetic keeps the cursor in range, a stream action leaves the configuration,
the fault latch, the port and the reply alone, and a stream action as an instruction is its action. -/

namespace Sys2Proof.Machine

/-! ### Arithmetic -/

theorem predMod_lt (a n : Nat) (h : 1 ≤ n) : predMod a n < n := Nat.mod_lt _ h

theorem succMod_lt (a n : Nat) (h : 1 ≤ n) : succMod a n < n := Nat.mod_lt _ h

/-- `predMod` is the non-negative remainder of spec/00_scope.md R9. -/
theorem predMod_cast (a n : Nat) (h : 1 ≤ n) : (predMod a n : Int) = ((a : Int) - 1) % (n : Int) := by
  unfold predMod
  rw [Int.natCast_emod, Int.natCast_add, Int.natCast_sub h]
  have : (a : Int) + ((n : Int) - ((1 : Nat) : Int)) = (a : Int) - 1 + n := by omega
  rw [this, Int.add_emod_right]

theorem charsLen_pos {g : Geometry} (h : g.Valid) : 1 ≤ g.charsLen := Nat.mul_pos h.1 h.2

/-- A row and a column of the buffer make an index of the buffer. -/
theorem rowStart_add_lt {g : Geometry} {r c : Nat} (hr : r < g.lineCount) (hc : c < g.lineWidth) :
    rowStart g r + c < g.charsLen := by
  have := Nat.mul_le_mul_right g.lineWidth (Nat.succ_le_of_lt hr)
  unfold rowStart Geometry.charsLen
  rw [Nat.succ_mul, Nat.mul_comm g.lineCount] at this
  omega

theorem rowOf_lt {g : Geometry} {c : Nat} (h : c < g.charsLen) : rowOf g c < g.lineCount :=
  Nat.div_lt_of_lt_mul h

theorem colOf_lt {g : Geometry} (c : Nat) (h : g.Valid) : colOf g c < g.lineWidth := Nat.mod_lt _ h.1

theorem lastRowStart_lt {g : Geometry} (h : g.Valid) : lastRowStart g < g.charsLen :=
  rowStart_add_lt (r := g.lineCount - 1) (c := 0) (Nat.sub_lt h.2 Nat.one_pos) h.1

/-- A cell is its row's start and its column. -/
theorem rowStart_add_colOf (g : Geometry) (c : Nat) : rowStart g (rowOf g c) + colOf g c = c := by
  unfold rowStart rowOf colOf
  rw [Nat.mul_comm]
  exact Nat.div_add_mod c g.lineWidth

/-- The end of a row of the buffer is in the buffer or just past it. -/
theorem rowStart_le {g : Geometry} {r : Nat} (h : r ≤ g.lineCount) : rowStart g r ≤ g.charsLen := by
  unfold rowStart Geometry.charsLen
  rw [Nat.mul_comm g.lineWidth]
  exact Nat.mul_le_mul_right _ h

/-- The cursor's row ends after the cursor, by at most a row. -/
theorem cursor_lt_rowEnd {g : Geometry} (c : Nat) (h : g.Valid) :
    c < rowStart g (rowOf g c + 1) ∧ rowStart g (rowOf g c + 1) ≤ c + g.lineWidth := by
  have := rowStart_add_colOf g c
  have := colOf_lt c h
  unfold rowStart at *
  rw [Nat.add_mul, Nat.one_mul]
  omega

/-! ### What a stream action leaves alone -/

@[simp] theorem newLine_geom (s : State) : (newLine s).geom = s.geom := by unfold newLine; simp only; split <;> simp
@[simp] theorem newLine_fault (s : State) : (newLine s).fault = s.fault := by unfold newLine; simp only; split <;> simp
@[simp] theorem newLine_pending (s : State) : (newLine s).pending = s.pending := by
  unfold newLine; simp only; split <;> simp
@[simp] theorem newLine_reply (s : State) : (newLine s).reply = s.reply := by unfold newLine; simp only; split <;> simp

/-- A stream action leaves configuration, fault latch, port and reply alone. -/
theorem streamAction_keeps (op : StreamOp) (s : State) :
    (streamAction op s).geom = s.geom ∧ (streamAction op s).fault = s.fault ∧
      (streamAction op s).pending = s.pending ∧ (streamAction op s).reply = s.reply := by
  cases op with
  | bs => simp [streamAction, streamBs]
  | lf => simp [streamAction, streamLf]
  | cr => simp [streamAction, streamCr]
  | left => simp [streamAction, streamLeft]
  | right => simp [streamAction, streamRight]
  | down => simp [streamAction, streamDown]
  | up => simp [streamAction, streamUp]
  | home => simp [streamAction, streamHome]
  | sol => simp [streamAction, streamSol]
  | eol => simp [streamAction, streamEol]
  | eos => simp [streamAction, streamEos]
  | tabc t => simp only [streamAction, streamTabc]; split <;> simp
  | glyph c => simp only [streamAction, streamGlyph]; split <;> simp

@[simp] theorem streamAction_geom (op : StreamOp) (s : State) : (streamAction op s).geom = s.geom :=
  (streamAction_keeps op s).1
@[simp] theorem streamAction_fault (op : StreamOp) (s : State) : (streamAction op s).fault = s.fault :=
  (streamAction_keeps op s).2.1
@[simp] theorem streamAction_pending (op : StreamOp) (s : State) : (streamAction op s).pending = s.pending :=
  (streamAction_keeps op s).2.2.1
@[simp] theorem streamAction_reply (op : StreamOp) (s : State) : (streamAction op s).reply = s.reply :=
  (streamAction_keeps op s).2.2.2

/-- So does a print stream. -/
theorem printStream_keeps (codes : List Byte) (s : State) :
    (printStream codes s).geom = s.geom ∧ (printStream codes s).fault = s.fault ∧
      (printStream codes s).pending = s.pending ∧ (printStream codes s).reply = s.reply := by
  induction codes generalizing s with
  | nil => exact ⟨rfl, rfl, rfl, rfl⟩
  | cons c rest ih =>
    obtain ⟨hg, hf, hp, hr⟩ := streamAction_keeps (decodeCode c) s
    obtain ⟨ihg, ihf, ihp, ihr⟩ := ih (streamStep c s)
    exact ⟨ihg.trans hg, ihf.trans hf, ihp.trans hp, ihr.trans hr⟩

@[simp] theorem printStream_geom (codes : List Byte) (s : State) : (printStream codes s).geom = s.geom :=
  (printStream_keeps codes s).1
@[simp] theorem printStream_fault (codes : List Byte) (s : State) : (printStream codes s).fault = s.fault :=
  (printStream_keeps codes s).2.1
@[simp] theorem printStream_pending (codes : List Byte) (s : State) : (printStream codes s).pending = s.pending :=
  (printStream_keeps codes s).2.2.1
@[simp] theorem printStream_reply (codes : List Byte) (s : State) : (printStream codes s).reply = s.reply :=
  (printStream_keeps codes s).2.2.2

/-! ### The reply does not matter to an action -/

theorem update_withReply (i : Nat) (v : Byte) (s : State) (r : Reply) :
    update i v (s.withReply r) = (update i v s).withReply r := by
  unfold update
  rw [readCell_withReply]
  by_cases h : readCell s i = v
  · rw [if_pos h, if_pos h]
  · rw [if_neg h, if_neg h]; rfl

theorem blankFrom_withReply (a n : Nat) (s : State) (r : Reply) :
    blankFrom a n (s.withReply r) = (blankFrom a n s).withReply r := by
  induction n generalizing a s with
  | zero => rfl
  | succ n ih => rw [blankFrom, update_withReply, ih]; rfl

/-- A stream action neither reads nor writes the reply. -/
theorem streamAction_withReply (op : StreamOp) (s : State) (r : Reply) :
    streamAction op (s.withReply r) = (streamAction op s).withReply r := by
  have newline : newLine (s.withReply r) = (newLine s).withReply r := by
    unfold newLine
    simp only [blankRange, State.withReply_cursor, State.withReply_geom, blankFrom_withReply]
    split <;> rfl
  cases op with
  | bs => exact update_withReply _ _ (s.withCursor _) r
  | lf => exact newline
  | cr => exact newline
  | eol => exact blankFrom_withReply _ _ s r
  | eos => exact blankFrom_withReply _ _ s r
  | tabc t =>
    exact (apply_ite (fun u : State => u.withReply r) (t < s.geom.lineWidth ∧ colOf s.geom s.cursor < t)
      (s.withCursor (rowStart s.geom (rowOf s.geom s.cursor) + t)) s).symm
  | glyph c =>
    simp only [streamAction, streamGlyph, State.withReply_cursor, State.withReply_geom, update_withReply]
    split <;> rfl
  | left => rfl
  | right => rfl
  | down => rfl
  | up => rfl
  | home => rfl
  | sol => rfl

/-- Nor does a print stream. -/
theorem printStream_withReply (codes : List Byte) (s : State) (r : Reply) :
    printStream codes (s.withReply r) = (printStream codes s).withReply r := by
  induction codes generalizing s with
  | nil => rfl
  | cons c rest ih => simp only [printStream, streamStep, streamAction_withReply, ih]

/-- A stream action as an instruction is its action. -/
theorem exec_toInstr (op : StreamOp) (s : State) :
    exec op.toInstr s = accept s fun s => complete .done (streamAction op s) := by
  cases op <;> rfl

end Sys2Proof.Machine
end

