-- ==== Sys2Proof/Laws/PerInstr.lean ====
section
/-! SUPPORT. The statements made per instruction. -/

namespace Sys2Proof.Laws.StreamOrCommand

/-- An instruction is a host command or the instruction of exactly one decoded stream code, never both
(spec/30_encoding.md R64, R70). -/
def Statement (i : Instr) : Prop :=
  (i.isCommand = true ∧ ∀ op : StreamOp, op.toInstr ≠ i) ∨
    (i.isCommand = false ∧ ∃ op : StreamOp, op.toInstr = i ∧ ∀ op' : StreamOp, op'.toInstr = i → op' = op)

/-- The instruction of a stream action is that of no other. -/
theorem of_op (op : StreamOp) : Statement op.toInstr := by
  refine .inr ⟨by cases op <;> rfl, op, rfl, fun op' h => ?_⟩
  cases op <;> cases op' <;> simp_all [StreamOp.toInstr]

/-- A host command is the instruction of no stream action. -/
theorem of_command {i : Instr} (h : i.isCommand = true) : Statement i := by
  refine .inl ⟨h, fun op hop => ?_⟩
  subst hop
  cases op <;> cases h

theorem bs : Statement .bs := of_op .bs
theorem lf : Statement .lf := of_op .lf
theorem cr : Statement .cr := of_op .cr
theorem left : Statement .left := of_op .left
theorem right : Statement .right := of_op .right
theorem down : Statement .down := of_op .down
theorem up : Statement .up := of_op .up
theorem home : Statement .home := of_op .home
theorem sol : Statement .sol := of_op .sol
theorem eol : Statement .eol := of_op .eol
theorem eos : Statement .eos := of_op .eos
theorem tabc (t : Nat) : Statement (.tabc t) := of_op (.tabc t)
theorem glyph (c : Byte) : Statement (.glyph c) := of_op (.glyph c)
theorem cls : Statement .cls := of_command rfl
theorem print (codes : List Byte) : Statement (.print codes) := of_command rfl
theorem printAt (pos : Int) (codes : List Byte) : Statement (.printAt pos codes) := of_command rfl
theorem tab (n : Int) : Statement (.tab n) := of_command rfl
theorem set (x y : Int) : Statement (.set x y) := of_command rfl
theorem reset (x y : Int) : Statement (.reset x y) := of_command rfl
theorem point (x y : Int) : Statement (.point x y) := of_command rfl
theorem peek (addr : Int) : Statement (.peek addr) := of_command rfl
theorem poke (addr : Int) (val : Byte) : Statement (.poke addr val) := of_command rfl
theorem bufGet (pos : Int) : Statement (.bufGet pos) := of_command rfl
theorem bufSet (pos : Int) (code : Byte) : Statement (.bufSet pos code) := of_command rfl

end Sys2Proof.Laws.StreamOrCommand
end

