-- ==== Sys2Proof/Laws/Reach.lean ====
section
/-! SUPPORT. What an instruction can do, said once: from a state with its cursor in range, an accepted instruction either
raises OutOfRange, or runs a sequence of primitive operations and answers the host. An invariant of steps is proved
over the four primitives. -/

namespace Sys2Proof.Machine

/-- One primitive operation: an update inside the buffer, a cursor move inside the buffer, a scroll, or a clear. -/
inductive Primitive : State → State → Prop
  | update (s : State) (i : Nat) (v : Byte) (h : i < s.geom.charsLen) : Primitive s (update i v s)
  | move (s : State) (c : Nat) (h : c < s.geom.charsLen) : Primitive s (s.withCursor c)
  | scroll (s : State) : Primitive s (scroll s)
  | clear (s : State) : Primitive s (clearScreen s)

/-- A sequence of primitive operations. -/
abbrev Reaches : State → State → Prop := Relation.ReflTransGen Primitive

theorem Primitive.geom_eq {s t : State} (h : Primitive s t) : t.geom = s.geom := by
  cases h <;> simp [clearScreen, emit]

theorem Primitive.keepsControl {s t : State} (h : Primitive s t) : s.KeepsControl t ∧ t.reply = s.reply := by
  cases h <;> simp [State.KeepsControl, clearScreen, emit]

theorem Reaches.keepsControl {s t : State} (h : Reaches s t) : s.KeepsControl t ∧ t.reply = s.reply := by
  induction h with
  | refl => exact ⟨⟨rfl, rfl, rfl⟩, rfl⟩
  | tail _ hp ih =>
    obtain ⟨⟨hg, hf, hpe⟩, hr⟩ := ih
    obtain ⟨⟨hg', hf', hpe'⟩, hr'⟩ := hp.keepsControl
    exact ⟨⟨hg'.trans hg, hf'.trans hf, hpe'.trans hpe⟩, hr'.trans hr⟩

theorem Reaches.geom_eq {s t : State} (h : Reaches s t) : t.geom = s.geom := h.keepsControl.1.1

theorem Reaches.refl (s : State) : Reaches s s := Relation.ReflTransGen.refl

theorem Reaches.update (s : State) (i : Nat) (v : Byte) (h : i < s.geom.charsLen) : Reaches s (update i v s) :=
  Relation.ReflTransGen.single (.update s i v h)

theorem Reaches.move (s : State) (c : Nat) (h : c < s.geom.charsLen) : Reaches s (s.withCursor c) :=
  Relation.ReflTransGen.single (.move s c h)

theorem Reaches.scroll (s : State) : Reaches s (scroll s) := Relation.ReflTransGen.single (.scroll s)

theorem Reaches.blankFrom (a n : Nat) (s : State) (h : a + n ≤ s.geom.charsLen) : Reaches s (blankFrom a n s) := by
  induction n generalizing a s with
  | zero => exact Reaches.refl s
  | succ n ih =>
    exact (Reaches.update s a Config.blank (by omega)).trans (ih (a + 1) _ (by rw [update_geom]; omega))

theorem Reaches.blankRange (a b : Nat) (s : State) (h : b ≤ s.geom.charsLen) : Reaches s (blankRange a b s) := by
  by_cases hab : a ≤ b
  · exact Reaches.blankFrom a (b - a) s (by omega)
  · rw [Machine.blankRange, Nat.sub_eq_zero_of_le (by omega)]
    exact Reaches.refl s

/-- A new line is a sequence of primitives. -/
theorem Reaches.newLine (s : State) (hg : s.geom.Valid) (hc : s.cursor < s.geom.charsLen) : Reaches s (newLine s) := by
  have hblank : Reaches s (Machine.blankRange s.cursor (rowStart s.geom (rowOf s.geom s.cursor + 1)) s) :=
    Reaches.blankRange _ _ s (rowStart_le (rowOf_lt hc))
  unfold Machine.newLine
  simp only
  split
  · refine hblank.trans (Reaches.move _ _ ?_)
    rw [blankRange_geom]
    exact rowStart_add_lt (c := 0) (by omega) hg.1
  · refine (hblank.trans (Reaches.scroll _)).trans (Reaches.move _ _ ?_)
    rw [scroll_geom, blankRange_geom]
    exact lastRowStart_lt hg

/-- A stream action is a sequence of primitives, and leaves the cursor in range. -/
theorem Reaches.streamAction (op : StreamOp) (s : State) (hg : s.geom.Valid) (hc : s.cursor < s.geom.charsLen) :
    Reaches s (streamAction op s) := by
  have hrow := rowOf_lt hc
  cases op with
  | bs =>
    have hlt := predMod_lt s.cursor _ (charsLen_pos hg)
    exact (Reaches.move s _ hlt).trans (Reaches.update _ _ _ hlt)
  | lf => exact Reaches.newLine s hg hc
  | cr => exact Reaches.newLine s hg hc
  | left => exact Reaches.move s _ (rowStart_add_lt hrow (predMod_lt _ _ hg.1))
  | right => exact Reaches.move s _ (rowStart_add_lt hrow (succMod_lt _ _ hg.1))
  | down => exact Reaches.move s _ (rowStart_add_lt (succMod_lt _ _ hg.2) (colOf_lt _ hg))
  | up => exact Reaches.move s _ (rowStart_add_lt (predMod_lt _ _ hg.2) (colOf_lt _ hg))
  | home => exact Reaches.move s 0 (charsLen_pos hg)
  | sol => exact Reaches.move s _ (rowStart_add_lt (c := 0) hrow hg.1)
  | eol => exact Reaches.blankRange _ _ s (rowStart_le hrow)
  | eos => exact Reaches.blankRange _ _ s (Nat.le_refl _)
  | tabc t =>
    simp only [Machine.streamAction, streamTabc]
    split
    · rename_i h
      exact Reaches.move s _ (rowStart_add_lt hrow h.1)
    · exact Reaches.refl s
  | glyph c =>
    have hupdate : Reaches s (Machine.update s.cursor c s) := Reaches.update s _ _ hc
    simp only [Machine.streamAction, streamGlyph]
    split
    · refine (hupdate.trans (Reaches.scroll _)).trans (Reaches.move _ _ ?_)
      rw [scroll_geom, update_geom]
      exact lastRowStart_lt hg
    · refine hupdate.trans (Reaches.move _ _ ?_)
      rw [update_geom]
      omega

/-- A stream action leaves the cursor in range. -/
theorem streamAction_cursor_lt (op : StreamOp) (s : State) (hg : s.geom.Valid) (hc : s.cursor < s.geom.charsLen) :
    (Machine.streamAction op s).cursor < s.geom.charsLen := by
  have hrow := rowOf_lt hc
  have newline : (Machine.newLine s).cursor < s.geom.charsLen := by
    unfold Machine.newLine
    simp only
    split
    · exact rowStart_add_lt (c := 0) (by omega) hg.1
    · exact lastRowStart_lt hg
  cases op with
  | bs => simpa [Machine.streamAction, streamBs] using predMod_lt s.cursor _ (charsLen_pos hg)
  | lf => exact newline
  | cr => exact newline
  | left => exact rowStart_add_lt hrow (predMod_lt _ _ hg.1)
  | right => exact rowStart_add_lt hrow (succMod_lt _ _ hg.1)
  | down => exact rowStart_add_lt (succMod_lt _ _ hg.2) (colOf_lt _ hg)
  | up => exact rowStart_add_lt (predMod_lt _ _ hg.2) (colOf_lt _ hg)
  | home => exact charsLen_pos hg
  | sol => exact rowStart_add_lt (c := 0) hrow hg.1
  | eol => simpa [Machine.streamAction, streamEol] using hc
  | eos => simpa [Machine.streamAction, streamEos] using hc
  | tabc t =>
    simp only [Machine.streamAction, streamTabc]
    split
    · rename_i h
      exact rowStart_add_lt hrow h.1
    · exact hc
  | glyph c =>
    simp only [Machine.streamAction, streamGlyph]
    split
    · exact lastRowStart_lt hg
    · simp only [State.withCursor_cursor]; omega

/-- A print stream is a sequence of primitives, and leaves the cursor in range. -/
theorem Reaches.printStream (codes : List Byte) (s : State) (hg : s.geom.Valid) (hc : s.cursor < s.geom.charsLen) :
    Reaches s (printStream codes s) ∧ (printStream codes s).cursor < s.geom.charsLen := by
  induction codes generalizing s with
  | nil => exact ⟨Reaches.refl s, hc⟩
  | cons c rest ih =>
    have hstep := Reaches.streamAction (decodeCode c) s hg hc
    have hcur : (streamStep c s).cursor < s.geom.charsLen := streamAction_cursor_lt (decodeCode c) s hg hc
    have hgeom : (streamStep c s).geom = s.geom := streamAction_geom _ s
    obtain ⟨hreach, hlt⟩ := ih (streamStep c s) (hgeom ▸ hg) (hgeom ▸ hcur)
    exact ⟨hstep.trans hreach, hgeom ▸ hlt⟩

/-- A write through the window is a sequence of primitives. -/
theorem Reaches.memWrite (addr : Int) (v : Byte) (s : State) : Reaches s (memWrite addr v s) := by
  unfold Machine.memWrite
  split
  · exact Reaches.update s _ v (translateAddr_some ‹_›).1
  · exact Reaches.refl s

/-- What an instruction does once it is accepted, over the shared operations. -/
def acceptedBody (i : Instr) (s : State) : Exec :=
  match i with
  | .bs => complete .done (streamAction .bs s)
  | .lf => complete .done (streamAction .lf s)
  | .cr => complete .done (streamAction .cr s)
  | .left => complete .done (streamAction .left s)
  | .right => complete .done (streamAction .right s)
  | .down => complete .done (streamAction .down s)
  | .up => complete .done (streamAction .up s)
  | .home => complete .done (streamAction .home s)
  | .sol => complete .done (streamAction .sol s)
  | .eol => complete .done (streamAction .eol s)
  | .eos => complete .done (streamAction .eos s)
  | .tabc t => complete .done (streamAction (.tabc t) s)
  | .glyph c => complete .done (streamAction (.glyph c) s)
  | .cls => complete .done (clearScreen s)
  | .print codes => complete .done (printStream codes s)
  | .printAt pos codes =>
    if inBufRange s.geom pos then complete .done (printStream codes (s.withCursor pos.toNat))
    else raiseOutOfRange (.printAt pos) s
  | .tab n => if inTabRange n then complete (.code (tabCode n)) s else raiseOutOfRange (.tab n) s
  | .set x y =>
    if inPixelRange s.geom x y then
      complete .done (update (pixelCell s.geom x y)
        (pixelOn (readCell s (pixelCell s.geom x y)) (pixelBit x y)) s)
    else raiseOutOfRange (.set x y) s
  | .reset x y =>
    if inPixelRange s.geom x y then
      complete .done (update (pixelCell s.geom x y)
        (pixelOff (readCell s (pixelCell s.geom x y)) (pixelBit x y)) s)
    else raiseOutOfRange (.reset x y) s
  | .point x y =>
    if inPixelRange s.geom x y then
      complete (.truth (pixelLit (readCell s (pixelCell s.geom x y)) (pixelBit x y))) s
    else raiseOutOfRange (.point x y) s
  | .peek addr => complete (.code (memRead s addr)) s
  | .poke addr v => complete .done (memWrite addr v s)
  | .bufGet pos =>
    if inBufRange s.geom pos then complete (.code (readCell s pos.toNat)) s else raiseOutOfRange (.bufGet pos) s
  | .bufSet pos v =>
    if inBufRange s.geom pos then complete .done (update pos.toNat v s) else raiseOutOfRange (.bufSet pos) s

/-- Every instruction is accepted in a running block and refused in a faulted one. -/
theorem exec_eq_accept (i : Instr) (s : State) : exec i s = accept s (acceptedBody i) := by
  cases i <;> rfl

/-- In a running block an instruction is its body. -/
theorem exec_running (i : Instr) {s : State} (h : s.Running) : exec i s = acceptedBody i s := by
  rw [exec_eq_accept, accept_running _ _ h]

/-- An instruction that answers a next state started in a running block and is its body there. -/
theorem exec_next {i : Instr} {s t : State} (h : exec i s = .next t) : s.Running ∧ acceptedBody i s = .next t :=
  accept_next (exec_eq_accept i s ▸ h)

/-- WHAT AN INSTRUCTION CAN DO. It raises OutOfRange for an operand out of range and changes nothing else, or it runs
primitive operations and answers the host. -/
theorem exec_next_cases {i : Instr} {s t : State} (hg : s.geom.Valid) (hc : s.cursor < s.geom.charsLen)
    (h : exec i s = .next t) :
    (∃ r : OutOfRange, r.Genuine s.geom ∧ t = (s.withFault r).withReply (.outOfRange r)) ∨
      ∃ u r, Reaches s u ∧ t = u.withReply r := by
  have checked : ∀ {p : Prop} [Decidable p] {done : Exec} {r : OutOfRange}, (¬p → r.Genuine s.geom) →
      (p → done = .next t → ∃ u r, Reaches s u ∧ t = u.withReply r) →
      (if p then done else raiseOutOfRange r s) = .next t →
      (∃ r : OutOfRange, r.Genuine s.geom ∧ t = (s.withFault r).withReply (.outOfRange r)) ∨
        ∃ u r, Reaches s u ∧ t = u.withReply r := by
    intro p _ done r hr hd h
    split at h
    · exact .inr (hd ‹_› h)
    · exact .inl ⟨r, hr ‹_›, raiseOutOfRange_next.mp h⟩
  have answered : ∀ {u : State} {r : Reply}, Reaches s u → complete r u = .next t →
      ∃ u r, Reaches s u ∧ t = u.withReply r := fun hu h => ⟨_, _, hu, complete_next.mp h⟩
  have stream : ∀ op : StreamOp, complete .done (streamAction op s) = .next t →
      ∃ u r, Reaches s u ∧ t = u.withReply r := fun op h => answered (Reaches.streamAction op s hg hc) h
  replace h := (exec_next h).2
  cases i with
  | bs => exact .inr (stream .bs h)
  | lf => exact .inr (stream .lf h)
  | cr => exact .inr (stream .cr h)
  | left => exact .inr (stream .left h)
  | right => exact .inr (stream .right h)
  | down => exact .inr (stream .down h)
  | up => exact .inr (stream .up h)
  | home => exact .inr (stream .home h)
  | sol => exact .inr (stream .sol h)
  | eol => exact .inr (stream .eol h)
  | eos => exact .inr (stream .eos h)
  | tabc n => exact .inr (stream (.tabc n) h)
  | glyph c => exact .inr (stream (.glyph c) h)
  | cls => exact .inr (answered (Relation.ReflTransGen.single (.clear s)) h)
  | print codes => exact .inr (answered (Reaches.printStream codes s hg hc).1 h)
  | printAt pos codes =>
    refine checked id (fun hp hd => ?_) h
    have hlt : pos.toNat < s.geom.charsLen := by omega
    exact answered ((Reaches.move s _ hlt).trans (Reaches.printStream codes (s.withCursor pos.toNat) hg hlt).1) hd
  | tab n => exact checked id (fun _ hd => answered (Reaches.refl s) hd) h
  | set x y =>
    exact checked id (fun hp hd => answered (Reaches.update s _ _ (pixelCell_lt hp)) hd) h
  | reset x y =>
    exact checked id (fun hp hd => answered (Reaches.update s _ _ (pixelCell_lt hp)) hd) h
  | point x y => exact checked id (fun _ hd => answered (Reaches.refl s) hd) h
  | peek addr => exact .inr (answered (Reaches.refl s) h)
  | poke addr v => exact .inr (answered (Reaches.memWrite addr v s) h)
  | bufGet pos => exact checked id (fun _ hd => answered (Reaches.refl s) hd) h
  | bufSet pos v =>
    exact checked id (fun hp hd => answered (Reaches.update s _ _ (by omega)) hd) h

/-- What a step can do: idle with nothing pending, or run the pending instruction with it taken off the port. -/
theorem step_next_cases {s t : State} (h : step s = .next t) :
    (s.pending = [] ∧ t = s) ∨
      ∃ i rest, s.pending = i :: rest ∧ i.wellFormed = true ∧ exec i (s.withPending rest) = .next t := by
  unfold step fetch at h
  cases hp : s.pending with
  | nil =>
    simp only [hp, Host.Outcome.next.injEq] at h
    exact .inl ⟨rfl, h.symm⟩
  | cons i rest =>
    simp only [hp] at h
    split at h
    · exact .inr ⟨i, rest, rfl, ‹_›, h⟩
    · cases h

end Sys2Proof.Machine
end

