-- ==== Sys2Proof/Laws/Run.lean ====
section
/-! SUPPORT. A run, one step at a time. -/

namespace Sys2Proof.Machine

@[simp] theorem runSteps_zero (s : State) : runSteps 0 s = .next s := rfl

/-- A run of one step more is a step and then the run from there. -/
theorem runSteps_succ (n : Nat) (s : State) :
    runSteps (n + 1) s =
      match step s with
      | .next t => runSteps n t
      | .fault r => .fault r
      | .refused r => .refused r := by
  unfold runSteps
  simp only [Host.Core.run]
  cases h : step s with
  | next t =>
    have hcore : Sys2Proof.core.step s = .next t := h
    rw [hcore]
  | fault r => cases r
  | refused r =>
    have hcore : Sys2Proof.core.step s = .refused r := h
    rw [hcore]
    rfl

end Sys2Proof.Machine
end

