-- ==== Sys2Proof/Tests/Slice0.lean ====
section
/-! SUPPORT. Tests. Expected results come from spec/95_test_vectors.md (its ids stand in the comments) and from the
encodings of spec/30_encoding.md R64 written out bit by bit. The last part shows, for each statement with hypotheses,
a concrete case that meets them all. -/

namespace Sys2Proof.Tests

open Sys2Proof.Machine

/-! ### Helpers -/

/-- A buffer with the given codes in its first cells. -/
def loaded (codes : List Byte) : Memory :=
  (codes.zipIdx).foldl (fun m c => m.write c.2 c.1) []

/-- An instance of the geometry of spec/95_test_vectors.md, 4 columns by 2 rows. -/
def small (codes : List Byte) (cursor : Nat) : State :=
  { State.fresh ⟨4, 2⟩ with buf := loaded codes, cursor := cursor }

/-- The cells and the cursor of a next state. -/
def screen (o : Exec) : Option (List Nat × Nat) :=
  match o with
  | .next s => some ((List.range s.geom.charsLen).map fun k => (readCell s k).toNat, s.cursor)
  | .fault _ => none
  | .refused _ => none

/-- The notifications of a next state. -/
def sent (o : Exec) : List Event :=
  match o with
  | .next s => s.events
  | .fault _ => []
  | .refused _ => []

/-- The reply of a next state. -/
def answer (o : Exec) : Option Reply :=
  match o with
  | .next s => s.reply
  | .fault _ => none
  | .refused _ => none

/-- The fault latch of a next state. -/
def latch (o : Exec) : Option OutOfRange :=
  match o with
  | .next s => s.fault
  | .fault _ => none
  | .refused _ => none

/-- Whether an outcome is the given refusal. -/
def refusedBy (o : Exec) (r : Refusal) : Bool :=
  match o with
  | .next _ => false
  | .fault _ => false
  | .refused r' => r' = r

/-- `ABCDEFG` and a blank. -/
def letters : List Byte := [65#8, 66#8, 67#8, 68#8, 69#8, 70#8, 71#8]

/-! ### Decoding: codes written out from spec/30_encoding.md R64 -/

theorem test_decode_bs : decodeTableWord 8 0b00001000 = some .bs := by decide
theorem test_decode_lf : decodeTableWord 8 0b00001010 = some .lf := by decide
theorem test_decode_cr : decodeTableWord 8 0b00001101 = some .cr := by decide
theorem test_decode_left : decodeTableWord 8 0b00011000 = some .left := by decide
theorem test_decode_right : decodeTableWord 8 0b00011001 = some .right := by decide
theorem test_decode_down : decodeTableWord 8 0b00011010 = some .down := by decide
theorem test_decode_up : decodeTableWord 8 0b00011011 = some .up := by decide
theorem test_decode_home : decodeTableWord 8 0b00011100 = some .home := by decide
theorem test_decode_sol : decodeTableWord 8 0b00011101 = some .sol := by decide
theorem test_decode_eol : decodeTableWord 8 0b00011110 = some .eol := by decide
theorem test_decode_eos : decodeTableWord 8 0b00011111 = some .eos := by decide
theorem test_decode_tabc_191 : decodeTableWord 8 0b10111111 = some (.tabc 0) := by decide
theorem test_decode_tabc_255 : decodeTableWord 8 0b11111111 = some (.tabc 64) := by decide
theorem test_decode_glyph_0 : decodeTableWord 8 0b00000000 = some (.glyph 0#8) := by decide
theorem test_decode_glyph_190 : decodeTableWord 8 0b10111110 = some (.glyph 190#8) := by decide
theorem test_decode_no_code : decode [] = .error .noCode := rfl
theorem test_no_word_decodes_to_a_command : decodeTableWord 0 0 = none := by decide

/-! ### Well-formedness refuses each ill-formed term -/

theorem test_illFormed_tabc_65 : (Instr.tabc 65).wellFormed = false := by decide
theorem test_illFormed_glyph_bs : (Instr.glyph 8#8).wellFormed = false := by decide
theorem test_illFormed_glyph_lf : (Instr.glyph 10#8).wellFormed = false := by decide
theorem test_illFormed_glyph_cr : (Instr.glyph 13#8).wellFormed = false := by decide
theorem test_illFormed_glyph_left : (Instr.glyph 24#8).wellFormed = false := by decide
theorem test_illFormed_glyph_eos : (Instr.glyph 31#8).wellFormed = false := by decide
theorem test_illFormed_glyph_tabc : (Instr.glyph 191#8).wellFormed = false := by decide
theorem test_illFormed_term_is_refused :
    refusedBy (step ((small [] 0).withPending [.glyph 8#8])) .illFormed = true := by decide

/-! ### Instructions, one step each -/

/-- F1: BS at cell 0 wraps to the last cell. -/
theorem test_bs_wraps : screen (exec .bs (small [] 0)) = some ([32, 32, 32, 32, 32, 32, 32, 32], 7) := by decide
/-- F3: BS crosses rows and blanks the cell it comes to. -/
theorem test_bs_blanks : screen (exec .bs (small letters 4)) = some ([65, 66, 67, 32, 69, 70, 71, 32], 3) := by decide
/-- F4: LF on the last row scrolls. -/
theorem test_lf_scrolls :
    screen (exec .lf (small [65#8, 66#8, 67#8, 68#8, 69#8, 70#8] 6)) =
      some ([69, 70, 32, 32, 32, 32, 32, 32], 4) := by decide
/-- R96: what is already blank sends nothing, the scroll sends one `Scroll`. -/
theorem test_lf_notifies : sent (exec .lf (small [65#8, 66#8, 67#8, 68#8, 69#8, 70#8] 6)) = [.scroll] := by decide
/-- F6: CR blanks the rest of the row and goes to the next. -/
theorem test_cr_next_row :
    screen (exec .cr (small [32#8, 88#8, 89#8, 90#8] 1)) = some ([32, 32, 32, 32, 32, 32, 32, 32], 4) := by decide
/-- F6: its notifications rise. -/
theorem test_cr_notifies :
    sent (exec .cr (small [32#8, 88#8, 89#8, 90#8] 1)) =
      [.cellChanged 1 88#8 32#8, .cellChanged 2 89#8 32#8, .cellChanged 3 90#8 32#8] := by decide
/-- F8. -/
theorem test_left_wraps_in_row : (screen (exec .left (small [] 4))).map Prod.snd = some 7 := by decide
/-- F9. -/
theorem test_right_wraps_in_row : (screen (exec .right (small [] 3))).map Prod.snd = some 0 := by decide
/-- F10. -/
theorem test_down_wraps_in_column : (screen (exec .down (small [] 7))).map Prod.snd = some 3 := by decide
/-- F11. -/
theorem test_up_wraps_in_column : (screen (exec .up (small [] 3))).map Prod.snd = some 7 := by decide
/-- R102: HOME writes no cell. -/
theorem test_home : screen (exec .home (small letters 7)) = some ([65, 66, 67, 68, 69, 70, 71, 32], 0) := by decide
/-- R103. -/
theorem test_sol : (screen (exec .sol (small letters 6))).map Prod.snd = some 4 := by decide
/-- F14. -/
theorem test_eol : screen (exec .eol (small letters 5)) = some ([65, 66, 67, 68, 69, 32, 32, 32], 5) := by decide
/-- F14: its notifications. -/
theorem test_eol_notifies :
    sent (exec .eol (small letters 5)) = [.cellChanged 5 70#8 32#8, .cellChanged 6 71#8 32#8] := by decide
/-- F15. -/
theorem test_eos : screen (exec .eos (small letters 2)) = some ([65, 66, 32, 32, 32, 32, 32, 32], 2) := by decide
/-- F18: a tab forward. -/
theorem test_tabc_forward : (screen (exec (.tabc 3) (small [] 1))).map Prod.snd = some 3 := by decide
/-- F17: a column the row has not is a no-op. -/
theorem test_tabc_past_the_row : (screen (exec (.tabc 5) (small [] 2))).map Prod.snd = some 2 := by decide
/-- F23: a glyph in the last cell scrolls. -/
theorem test_glyph_scrolls :
    screen (exec (.glyph 72#8) (small letters 7)) = some ([69, 70, 71, 72, 32, 32, 32, 32], 4) := by decide
/-- F23: its notifications. -/
theorem test_glyph_notifies :
    sent (exec (.glyph 72#8) (small letters 7)) = [.cellChanged 7 32#8 72#8, .scroll] := by decide
/-- V2. -/
theorem test_cls : screen (exec .cls (small letters 5)) = some ([32, 32, 32, 32, 32, 32, 32, 32], 0) := by decide
/-- K1: `Clear` is sent even when nothing changes. -/
theorem test_cls_notifies : sent (exec .cls (small [] 0)) = [.clear] := by decide
/-- V1. -/
theorem test_print :
    screen (exec (.print [65#8, 66#8, 10#8, 67#8, 68#8]) (small [] 0)) =
      some ([65, 66, 32, 32, 67, 68, 32, 32], 6) := by decide
/-- P3: text, tabs, moves and erasure in one print stream on 8 columns by 3 rows. -/
theorem test_print_stream :
    screen (exec (.print [65#8, 66#8, 196#8, 88#8, 194#8, 89#8, 13#8, 72#8, 69#8, 76#8, 76#8, 79#8, 29#8, 25#8, 25#8,
      30#8, 26#8, 90#8, 27#8, 27#8, 24#8]) (State.fresh ⟨8, 3⟩)) =
      some ([65, 66, 32, 32, 32, 88, 89, 32, 72, 69, 32, 32, 32, 32, 32, 32, 32, 32, 90, 32, 32, 32, 32, 32], 2) := by
  decide
/-- F24: a scroll, then BS onto the moved glyph. -/
theorem test_printAt :
    screen (exec (.printAt 7 [90#8, 8#8]) (small [] 0)) = some ([32, 32, 32, 32, 32, 32, 32, 32], 3) := by decide
/-- F27: an invalid position raises and prints nothing. -/
theorem test_printAt_out_of_range : latch (exec (.printAt 8 [65#8]) (small [] 0)) = some (.printAt 8) := by decide
/-- F28. -/
theorem test_tab : answer (exec (.tab 63) (small [] 0)) = some (.code 254#8) := by decide
/-- F29. -/
theorem test_tab_out_of_range : latch (exec (.tab 64) (small [] 0)) = some (.tab 64) := by decide
/-- S1: SET erases the glyph and sends one notification. -/
theorem test_set : sent (exec (.set 1 0) (small [65#8] 0)) = [.cellChanged 0 65#8 130#8] := by decide
/-- S6: the last pixel. -/
theorem test_set_last_pixel :
    screen (exec (.set 7 5) (small [] 0)) = some ([32, 32, 32, 32, 32, 32, 32, 160], 0) := by decide
/-- S4: RESET keeps bit 6. -/
theorem test_reset : sent (exec (.reset 0 2) (small [255#8] 0)) = [.cellChanged 0 255#8 239#8] := by decide
/-- S13: one record with both operands. -/
theorem test_reset_out_of_range :
    latch (exec (.reset (-1) (-1)) (small [] 0)) = some (.reset (-1) (-1)) := by decide
/-- S10. -/
theorem test_point : answer (exec (.point 0 0) (small [0xC1#8] 0)) = some (.truth true) := by decide
/-- S9: a glyph cell answers false whatever its bits. -/
theorem test_point_glyph : answer (exec (.point 0 0) (small [65#8] 0)) = some (.truth false) := by decide
/-- M1. -/
theorem test_peek : answer (exec (.peek 15367) (small [] 0)) = some (.code 32#8) := by decide
/-- M2. -/
theorem test_peek_outside : answer (exec (.peek 15368) (small letters 0)) = some (.code 0#8) := by decide
/-- V11. -/
theorem test_poke : sent (exec (.poke 15361 255#8) (small [] 0)) = [.cellChanged 1 32#8 255#8] := by decide
/-- M3. -/
theorem test_poke_outside : sent (exec (.poke 15359 65#8) (small [] 0)) = [] := by decide
/-- B2. -/
theorem test_bufGet : answer (exec (.bufGet 7) (small [] 0)) = some (.code 32#8) := by decide
/-- B4. -/
theorem test_bufGet_out_of_range : latch (exec (.bufGet (-1)) (small [] 0)) = some (.bufGet (-1)) := by decide
/-- B5: a control-code value is stored raw. -/
theorem test_bufSet : sent (exec (.bufSet 0 10#8) (small [] 0)) = [.cellChanged 0 32#8 10#8] := by decide
/-- B6: the cell's own code sends nothing. -/
theorem test_bufSet_idempotent : sent (exec (.bufSet 3 32#8) (small [] 0)) = [] := by decide
/-- K3: a faulted block refuses even PEEK. -/
theorem test_faulted_block_refuses :
    refusedBy (exec (.peek 15360) ((small [] 0).withFault (.bufGet 8))) .blockFaulted = true := by decide
/-- R160. -/
theorem test_cause_codes : causeCode none = 0 ∧ causeCode (some (.set 8 0)) = 1 := by decide

/-- A table word is fetched and run by the next step. -/
theorem test_fetched_word_runs :
    screen (step ((small [] 0).withFetchWord 8 65)) = some ([65, 32, 32, 32, 32, 32, 32, 32], 1) := by decide

/-! ### Cases that meet the hypotheses of the statements -/

/-- An unfaulted small instance with one instruction pending. -/
def waiting (i : Instr) : State := (small [] 0).withPending [i]

theorem waiting_inv (i : Instr) : (waiting i).Inv :=
  ⟨(by decide : Geometry.Valid ⟨4, 2⟩), (by decide : Memory.wf []), (by decide : Memory.within 8 []),
    (by decide : 0 < 8), fun _ h => by cases h⟩

theorem test_witness_EveryCodeDecodesAsTheTableSays :
    191 ≤ (191#8).toNat ∧ 191 ≤ (255#8).toNat ∧ (7#8).toNat ≤ 7 ∧ (14 ≤ (14#8).toNat ∧ (23#8).toNat ≤ 23) ∧
      (32 ≤ (32#8).toNat ∧ (190#8).toNat ≤ 190) := by decide
theorem test_witness_DecodeAndEncodeAgree :
    (Instr.tabc 64).wellFormed = true ∧ encode (.tabc 64) = some 255#8 ∧
      (Instr.glyph 190#8).wellFormed = true ∧ encode (.glyph 190#8) = some 190#8 := by decide
theorem test_witness_StepRunsThePendingInstruction :
    (waiting (.tabc 64)).pending = .tabc 64 :: [] ∧ (Instr.tabc 64).wellFormed = true := by decide
theorem test_witness_StepRunsTheDecodedCode : (waiting (.print [8#8])).pending = .print [8#8] :: [] := rfl
theorem test_witness_StepIdlesAndRefusesIllFormedTerms :
    (small [] 0).pending = [] ∧ (waiting (.tabc 65)).pending = .tabc 65 :: [] ∧
      (Instr.tabc 65).wellFormed = false := by decide
theorem test_witness_ConstructionState :
    Geometry.Valid ⟨1, 1⟩ ∧ ¬ Geometry.Valid ⟨0, 1⟩ ∧ ¬ Geometry.Valid ⟨1, 0⟩ := by decide
theorem test_witness_ConstructionMeetsTheInvariants : Geometry.Valid ⟨1, 1⟩ ∧ Geometry.Valid ⟨4, 2⟩ := by decide
theorem test_witness_EveryStepKeepsTheInvariant :
    (waiting (.set 7 5)).Inv ∧ ∃ t, step (waiting (.set 7 5)) = .next t := ⟨waiting_inv _, _, rfl⟩
theorem test_witness_EveryStepKeepsTheDisplayConsistent :
    (waiting (.set 7 5)).Inv ∧ (waiting (.set 7 5)).DisplayShowsBuffer ∧
      ∃ t, step (waiting (.set 7 5)) = .next t := ⟨waiting_inv _, fun _ _ => rfl, _, rfl⟩
theorem test_witness_EveryStepKeepsTheLogTruthful :
    (waiting (.set 7 5)).Inv ∧ (waiting (.set 7 5)).DisplayShowsBuffer ∧ (waiting (.set 7 5)).LogTruthful ∧
      ∃ t, step (waiting (.set 7 5)) = .next t :=
  ⟨waiting_inv _, fun _ _ => rfl, fun _ _ _ _ _ h => by simp [waiting, small, State.withPending, State.fresh] at h,
    _, rfl⟩
theorem test_witness_NoStepRewritesGeometryLogOrFault :
    (∃ t, step (waiting .cls) = .next t) ∧
      ∃ t, step ((small [] 0).withFault (.tab 64)) = .next t ∧
        ((small [] 0).withFault (.tab 64)).fault = some (.tab 64) := ⟨⟨_, rfl⟩, _, rfl, rfl⟩
theorem test_witness_OnlyTheNamedInstructionsClearOrScroll :
    (∃ t, exec .cls (small [] 0) = .next t ∧ t.events = [.clear]) ∧
      ∃ t, exec .lf (small [] 7) = .next t ∧ t.events = [.scroll] := ⟨⟨_, rfl, rfl⟩, _, rfl, rfl⟩
theorem test_witness_OnlyPrintingAndClsMoveTheCursor :
    ∃ t, step (waiting (.printAt 7 [])) = .next t ∧ t.cursor ≠ (waiting (.printAt 7 [])).cursor :=
  ⟨_, rfl, by decide⟩
theorem test_witness_BackspaceBlanksTheCellBefore : (small letters 0).Running ∧ (small letters 0).geom.Valid := by
  decide
theorem test_witness_NewLineCodesBlankAndAdvance :
    (small letters 3).Running ∧ (small letters 3).geom.Valid ∧ 3 < (small letters 3).geom.charsLen ∧
      3 / (small letters 3).geom.lineWidth < (small letters 3).geom.lineCount - 1 ∧
      4 / (small letters 4).geom.lineWidth = (small letters 4).geom.lineCount - 1 ∧
      7 / (small letters 7).geom.lineWidth = (small letters 7).geom.lineCount - 1 := by decide
theorem test_witness_LeftWrapsWithinTheRow : (small [] 4).Running ∧ (small [] 4).geom.Valid := by decide
theorem test_witness_RightWrapsWithinTheRow : (small [] 3).Running ∧ (small [] 3).geom.Valid := by decide
theorem test_witness_DownWrapsWithinTheColumn : (small [] 7).Running ∧ (small [] 7).geom.Valid := by decide
theorem test_witness_UpWrapsWithinTheColumn : (small [] 0).Running ∧ (small [] 0).geom.Valid := by decide
theorem test_witness_HomeGoesToCellZero : (small letters 7).Running := by decide
theorem test_witness_SolGoesToTheRowStart : (small letters 7).Running := by decide
theorem test_witness_EraseCodesBlankToTheirEnd : (small letters 0).Running ∧ (small letters 7).Running := by decide
theorem test_witness_TabCodeOnlyMovesForwardInTheRow :
    (small [] 2).Running ∧ (3 < (small [] 2).geom.lineWidth ∧ 2 % (small [] 2).geom.lineWidth < 3) ∧
      (small [] 2).geom.lineWidth ≤ 4 ∧ 2 ≤ 2 % (small [] 2).geom.lineWidth := by decide
theorem test_witness_GlyphWritesAndAdvances :
    (small [] 6).Running ∧ (small [] 6).geom.Valid ∧ 6 + 1 < (small [] 6).geom.charsLen ∧
      (small [] 7).Running ∧ 7 < (small [] 7).geom.charsLen ∧ 7 + 1 = (small [] 7).geom.charsLen := by decide
theorem test_witness_OppositeMovesCancel :
    (small [] 4).Running ∧ (small [] 4).geom.Valid ∧ (small [] 4).cursor < (small [] 4).geom.charsLen ∧
      (Instr.left, Instr.right) ∈ [(Instr.down, Instr.up), (.up, .down), (.left, .right), (.right, .left)] := by decide
theorem test_witness_PrintRunsItsCodesInOrder : (small letters 7).Running := by decide
theorem test_witness_PrintAlwaysCompletes :
    (small letters 7).Running ∧ (small letters 7).geom.Valid ∧
      (small letters 7).cursor < (small letters 7).geom.charsLen := by decide
theorem test_witness_PrintAtPrintsFromItsPosition :
    (small [] 0).Running ∧ (0 : Int) ≤ 0 ∧ (0 : Int) < (small [] 0).geom.charsLen ∧
      (0 : Int) ≤ 7 ∧ (7 : Int) < (small [] 0).geom.charsLen := by decide
theorem test_witness_TabAnswersItsCode :
    (small [] 0).Running ∧ (0 : Int) ≤ 0 ∧ (0 : Int) < 64 ∧ (0 : Int) ≤ 63 ∧ (63 : Int) < 64 := by decide
theorem test_witness_PrintingATabCodeTabs :
    (small [] 1).Running ∧ 3 < 64 ∧
      ∃ t, exec (.tab 3) (small [] 1) = .next t ∧ t.reply = some (.code 194#8) := ⟨by decide, by decide, _, rfl, rfl⟩
theorem test_witness_PrintingAFullRowOfGlyphs :
    ((small [] 0).Running ∧ (small [] 0).geom.Valid ∧ 0 < (small [] 0).geom.charsLen ∧
      0 % (small [] 0).geom.lineWidth = 0 ∧ [65#8, 66#8, 67#8, 190#8].length = (small [] 0).geom.lineWidth ∧
      (∀ c ∈ [65#8, 66#8, 67#8, 190#8], decodeCode c = .glyph c) ∧
      0 / (small [] 0).geom.lineWidth < (small [] 0).geom.lineCount - 1) ∧
    ((small [] 4).Running ∧ (small [] 4).geom.Valid ∧ 4 < (small [] 4).geom.charsLen ∧
      4 % (small [] 4).geom.lineWidth = 0 ∧
      4 / (small [] 4).geom.lineWidth = (small [] 4).geom.lineCount - 1) := by decide
theorem test_witness_PrintSendsBoundedlyManyNotifications :
    (small letters 7).geom.Valid ∧ (small letters 7).cursor < (small letters 7).geom.charsLen ∧
      ∃ t, exec (.print [31#8, 72#8]) (small letters 7) = .next t := ⟨by decide, by decide, _, rfl⟩
theorem test_witness_ClsBlanksAndHomes : (small letters 7).Running := by decide
theorem test_witness_ClsMakesAnySurfaceShowTheBuffer : ∃ t, exec .cls (small letters 7) = .next t := ⟨_, rfl⟩
theorem test_witness_ProgramsThatStartWithClsForgetTheState :
    ((small letters 7).withPending [.cls, .print [65#8]]).Running ∧
      ((small [] 0).withPending [.cls, .print [65#8]]).Running ∧
      ((small letters 7).withPending [.cls, .print [65#8]]).geom =
        ((small [] 0).withPending [.cls, .print [65#8]]).geom ∧
      ((small letters 7).withPending [.cls, .print [65#8]]).pending = .cls :: [.print [65#8]] ∧
      ((small [] 0).withPending [.cls, .print [65#8]]).pending = .cls :: [.print [65#8]] := by decide
theorem test_witness_PixelsAreTheSixBitsOfEachCell :
    Geometry.Valid ⟨4, 2⟩ ∧ inPixelRange ⟨4, 2⟩ 0 0 ∧ inPixelRange ⟨4, 2⟩ 7 5 ∧ pixelCell ⟨4, 2⟩ 7 5 = 7 ∧
      pixelBit 7 5 = 5 ∧ 7 < Geometry.charsLen ⟨4, 2⟩ := by decide
theorem test_witness_SetTurnsOneSubPixelOn :
    (small [65#8] 0).Running ∧ inPixelRange (small [65#8] 0).geom 0 0 ∧ inPixelRange (small [65#8] 0).geom 7 5 := by
  decide
theorem test_witness_ResetTurnsOneSubPixelOff :
    (small [65#8] 0).Running ∧ inPixelRange (small [65#8] 0).geom 0 0 ∧ inPixelRange (small [65#8] 0).geom 7 5 := by
  decide
theorem test_witness_PointAnswersTheSubPixel :
    (small [65#8] 0).Running ∧ (small [0xC1#8] 0).Running ∧ inPixelRange (small [65#8] 0).geom 1 2 ∧
    (readCell (small [65#8] 0) (pixelCell ⟨4, 2⟩ 1 2)).getLsbD 7 = false ∧
      (readCell (small [0xC1#8] 0) (pixelCell ⟨4, 2⟩ 1 2)).getLsbD 7 = true := by decide
theorem test_witness_SubPixelsAreIndependent :
    (small [65#8] 0).Running ∧ inPixelRange (small [65#8] 0).geom 1 2 ∧ inPixelRange (small [65#8] 0).geom 0 2 ∧
      ((0 : Int), (2 : Int)) ≠ (1, 2) ∧
      (∃ t, exec (.set 1 2) (small [65#8] 0) = .next t) ∧ ∃ u, exec (.reset 1 2) (small [65#8] 0) = .next u :=
  ⟨by decide, by decide, by decide, by decide, ⟨_, rfl⟩, _, rfl⟩
theorem test_witness_PeekReadsTheWindowOrZero :
    (small letters 0).Running ∧ (15360 ≤ (15360 : Int) ∧ (15367 : Int) < 15360 + (small letters 0).geom.charsLen) ∧
      ((15359 : Int) < 15360 ∧ 15360 + ((small letters 0).geom.charsLen : Int) ≤ 15368) := by decide
theorem test_witness_PokeWritesTheWindowOrNothing :
    (small letters 0).Running ∧ (15360 ≤ (15360 : Int) ∧ (15367 : Int) < 15360 + (small letters 0).geom.charsLen) ∧
      ((15359 : Int) < 15360 ∧ 15360 + ((small letters 0).geom.charsLen : Int) ≤ 15368) := by decide
theorem test_witness_WindowTranslatesByAPlainOffset :
    translateAddr ⟨4, 2⟩ 15367 = some 7 ∧ translateAddr ⟨4, 2⟩ 15368 = none ∧ translateAddr ⟨4, 2⟩ 15359 = none := by
  decide
theorem test_witness_BufGetAnswersTheCell :
    (small letters 0).Running ∧ (0 : Int) ≤ 0 ∧ (0 : Int) < (small letters 0).geom.charsLen ∧
      (0 : Int) ≤ 7 ∧ (7 : Int) < (small letters 0).geom.charsLen := by decide
theorem test_witness_BufSetWritesTheCell :
    (small letters 0).Running ∧ (0 : Int) ≤ 0 ∧ (0 : Int) < (small letters 0).geom.charsLen ∧
      (0 : Int) ≤ 7 ∧ (7 : Int) < (small letters 0).geom.charsLen := by decide
theorem test_witness_WindowAndBufferAreTheSameCells :
    (small letters 0).Running ∧ 7 < (small letters 0).geom.charsLen := by decide
theorem test_witness_ReadsArePureAndWritesIdempotent :
    (small letters 0).Running ∧
      (∃ t, exec (.point 0 0) (small letters 0) = .next t ∧ t.fault = none) ∧
      (7 < (small letters 0).geom.charsLen ∧ readCell (small letters 0) 7 = 32#8) ∧
      (∃ t, exec (.set 7 5) (small letters 0) = .next t ∧ t.fault = none ∧
        7 = pixelCell (small letters 0).geom 7 5) ∧
      (∃ t, exec (.poke 15367 65#8) (small letters 0) = .next t ∧ t.fault = none ∧
        translateAddr (small letters 0).geom 15367 = some 7) ∧
      (∃ t, exec (.bufSet 7 65#8) (small letters 0) = .next t ∧ t.fault = none) ∧
      translateAddr (small letters 0).geom 15368 = none ∧ translateAddr (small letters 0).geom 15359 = none :=
  ⟨by decide, ⟨_, rfl, rfl⟩, by decide, ⟨_, rfl, rfl, by decide⟩, ⟨_, rfl, rfl, by decide⟩, ⟨_, rfl, rfl⟩, by decide,
    by decide⟩
theorem test_witness_RangeViolationsLatchTheFault :
    (small [] 0).Running ∧ ((-1 : Int) < 0 ∧ ((small [] 0).geom.charsLen : Int) ≤ 8) ∧ (64 : Int) ≤ 64 ∧
      (2 * ((small [] 0).geom.lineWidth : Int) ≤ 8 ∧ 3 * ((small [] 0).geom.lineCount : Int) ≤ 6) := by decide
theorem test_witness_OnlyRangeViolationsRaise :
    (small [] 0).Running ∧ ∃ t, exec (.set 8 0) (small [] 0) = .next t ∧ t.fault = some (.set 8 0) :=
  ⟨by decide, _, rfl, rfl⟩
theorem test_witness_EveryInstructionAnswersInARunningBlock : (small [] 0).Running := by decide
theorem test_witness_FaultedBlockIsQuiescent :
    ((small [] 0).withFault (.set 8 0)).fault = some (.set 8 0) ∧
      ∃ t, runSteps 3 ((small [] 0).withFault (.set 8 0)) = .next t := ⟨rfl, _, rfl⟩
theorem test_witness_StreamActionsAndPrintingKeepTheCursorInRange :
    (small letters 7).Running ∧ (small letters 7).geom.Valid ∧
      inCursorRange (small letters 7).geom (small letters 7).cursor ∧ Instr.isCommand (.glyph 72#8) = false ∧
      inBufRange (small letters 7).geom 0 ∧ inBufRange (small letters 7).geom 7 := by decide
theorem test_witness_NoStepLooksAtTheNotificationHistory :
    (waiting (.glyph 65#8)).SameButLog ((waiting (.glyph 65#8)).withEvent .clear) ∧
      (waiting (.tabc 65)).SameButLog ((waiting (.tabc 65)).withEvent .scroll) :=
  ⟨⟨rfl, rfl, rfl, rfl, rfl, rfl⟩, rfl, rfl, rfl, rfl, rfl, rfl⟩

end Sys2Proof.Tests
end

/-! ### Scope: what every step keeps (spec/00_scope.md)

An instruction can only add to the notification log and never touches the geometry. `State.Extends` says this of two
states, with no premise on the geometry or the cursor, and its lemmas follow the operations from `update` up to `exec`. -/

namespace Sys2Proof.Machine

/-- `t` comes from `s` by an operation of the block: the same geometry, and the notifications of `s` with perhaps more at
the end (spec/10_state.md R26, R27). -/
structure State.Extends (s t : State) : Prop where
  geom_eq : t.geom = s.geom
  events_prefix : s.events <+: t.events

namespace State.Extends

theorem refl (s : State) : s.Extends s := ⟨rfl, List.prefix_rfl⟩

theorem trans {s t u : State} (hst : s.Extends t) (htu : t.Extends u) : s.Extends u :=
  ⟨htu.geom_eq.trans hst.geom_eq, hst.events_prefix.trans htu.events_prefix⟩

/-! #### One lemma per operation: an extension of `s`, taken one operation further, still extends `s` -/

variable {s t : State}

theorem withCursor (h : s.Extends t) (c : Nat) : s.Extends (t.withCursor c) := ⟨h.geom_eq, h.events_prefix⟩

theorem withFault (h : s.Extends t) (r : OutOfRange) : s.Extends (t.withFault r) := ⟨h.geom_eq, h.events_prefix⟩

theorem withReply (h : s.Extends t) (r : Reply) : s.Extends (t.withReply r) := ⟨h.geom_eq, h.events_prefix⟩

theorem update (h : s.Extends t) (i : Nat) (v : Byte) : s.Extends (update i v t) :=
  h.trans ⟨update_geom i v t, update_events i v t ▸ List.prefix_append ..⟩

theorem blankRange (h : s.Extends t) (a b : Nat) : s.Extends (blankRange a b t) :=
  h.trans ⟨blankRange_geom a b t, blankRange_events a b t ▸ List.prefix_append ..⟩

theorem scroll (h : s.Extends t) : s.Extends (scroll t) :=
  h.trans ⟨scroll_geom t, scroll_events t ▸ List.prefix_append ..⟩

theorem clearScreen (h : s.Extends t) : s.Extends (clearScreen t) := h.trans ⟨rfl, List.prefix_append ..⟩

theorem memWrite (h : s.Extends t) (addr : Int) (v : Byte) : s.Extends (memWrite addr v t) := by
  unfold Machine.memWrite
  split
  · exact h.update _ v
  · exact h

theorem newLine (h : s.Extends t) : s.Extends (newLine t) := by
  have hblank := h.blankRange t.cursor (rowStart t.geom (rowOf t.geom t.cursor + 1))
  unfold Machine.newLine
  simp only
  split
  · exact hblank.withCursor _
  · exact hblank.scroll.withCursor _

theorem streamAction (h : s.Extends t) (op : StreamOp) : s.Extends (streamAction op t) := by
  cases op with
  | bs => exact (h.withCursor _).update _ _
  | lf => exact h.newLine
  | cr => exact h.newLine
  | left => exact h.withCursor _
  | right => exact h.withCursor _
  | down => exact h.withCursor _
  | up => exact h.withCursor _
  | home => exact h.withCursor _
  | sol => exact h.withCursor _
  | eol => exact h.blankRange _ _
  | eos => exact h.blankRange _ _
  | tabc n =>
    simp only [Machine.streamAction, streamTabc]
    split
    · exact h.withCursor _
    · exact h
  | glyph c =>
    simp only [Machine.streamAction, streamGlyph]
    split
    · exact (h.update _ c).scroll.withCursor _
    · exact (h.update _ c).withCursor _

theorem printStream (h : s.Extends t) (codes : List Byte) : s.Extends (printStream codes t) := by
  induction codes generalizing t with
  | nil => exact h
  | cons c rest ih => exact ih (h.streamAction (decodeCode c))

/-! #### How a command ends -/

theorem of_complete {u : State} {r : Reply} (hu : s.Extends u) (h : complete r u = .next t) : s.Extends t :=
  complete_next.mp h ▸ hu.withReply r

/-- A range-checked command completes or raises, and either way it only extends. -/
theorem of_checked {p : Prop} [Decidable p] {u : State} {r : Reply} {x : OutOfRange} (hu : s.Extends u)
    (h : (if p then complete r u else raiseOutOfRange x s) = .next t) : s.Extends t := by
  split at h
  · exact hu.of_complete h
  · exact raiseOutOfRange_next.mp h ▸ ((refl s).withFault x).withReply _

end State.Extends

/-- Every instruction that answers a next state keeps the geometry and only adds to the log, from any state. -/
theorem exec_next_extends {i : Instr} {s t : State} (h : exec i s = .next t) : s.Extends t := by
  have hs := State.Extends.refl s
  obtain ⟨-, hbody⟩ := exec_next h
  cases i with
  | bs => exact (hs.streamAction .bs).of_complete hbody
  | lf => exact (hs.streamAction .lf).of_complete hbody
  | cr => exact (hs.streamAction .cr).of_complete hbody
  | left => exact (hs.streamAction .left).of_complete hbody
  | right => exact (hs.streamAction .right).of_complete hbody
  | down => exact (hs.streamAction .down).of_complete hbody
  | up => exact (hs.streamAction .up).of_complete hbody
  | home => exact (hs.streamAction .home).of_complete hbody
  | sol => exact (hs.streamAction .sol).of_complete hbody
  | eol => exact (hs.streamAction .eol).of_complete hbody
  | eos => exact (hs.streamAction .eos).of_complete hbody
  | tabc n => exact (hs.streamAction (.tabc n)).of_complete hbody
  | glyph c => exact (hs.streamAction (.glyph c)).of_complete hbody
  | cls => exact hs.clearScreen.of_complete hbody
  | print codes => exact (hs.printStream codes).of_complete hbody
  | printAt pos codes => exact ((hs.withCursor pos.toNat).printStream codes).of_checked hbody
  | tab n => exact hs.of_checked hbody
  | set x y => exact (hs.update _ _).of_checked hbody
  | reset x y => exact (hs.update _ _).of_checked hbody
  | point x y => exact hs.of_checked hbody
  | peek addr => exact hs.of_complete hbody
  | poke addr v => exact (hs.memWrite addr v).of_complete hbody
  | bufGet pos => exact hs.of_checked hbody
  | bufSet pos v => exact (hs.update _ v).of_checked hbody

/-- A step that answers a next state keeps the geometry and only adds to the log. -/
theorem step_next_extends {s t : State} (h : step s = .next t) : s.Extends t := by
  obtain ⟨-, rfl⟩ | ⟨i, rest, -, -, hexec⟩ := step_next_cases h
  · exact State.Extends.refl t
  · obtain ⟨hgeom, hevents⟩ := exec_next_extends hexec
    exact ⟨hgeom, hevents⟩

/-- The only step a faulted block answers is the idle one, which gives the state back (spec/60_exceptions.md R164). -/
theorem step_next_eq_of_faulted {s t : State} {r : OutOfRange} (hf : s.fault = some r) (h : step s = .next t) :
    t = s := by
  obtain ⟨-, hidle⟩ | ⟨i, rest, -, -, hexec⟩ := step_next_cases h
  · exact hidle
  · have hrun : s.fault = none := (exec_next hexec).1
    rw [hf] at hrun
    cases hrun

/-- A pending command is what the port gives next. -/
theorem fetch_of_pending {s : State} {i : Instr} {rest : List Instr} (hp : s.pending = i :: rest) :
    fetch s = some (i, s.withPending rest) := by
  rw [fetch, hp]

/-- A well-formed command at the front of the port is run with it taken off. -/
theorem step_of_pending {s : State} {i : Instr} {rest : List Instr} (hp : s.pending = i :: rest)
    (hw : i.wellFormed = true) : step s = exec i (s.withPending rest) := by
  simp only [step, fetch_of_pending hp, hw, if_true]

/-- Settles O5: the port gives the instruction, and the well-formedness check lets it run. -/
theorem stepRunsThePendingInstruction : Obligations.StepRunsThePendingInstruction := by
  unfold Obligations.StepRunsThePendingInstruction
  intro s i rest hp hw
  exact step_of_pending hp hw

/-- Settles O13: geometry and log by `State.Extends` over every instruction, the latch because a faulted block only
idles. -/
theorem noStepRewritesGeometryLogOrFault : Obligations.NoStepRewritesGeometryLogOrFault := by
  unfold Obligations.NoStepRewritesGeometryLogOrFault
  intro s t h
  obtain ⟨hgeom, new, hnew⟩ := step_next_extends h
  refine ⟨hgeom, ⟨new, hnew.symm⟩, fun r hf => ?_⟩
  rw [step_next_eq_of_faulted hf h]
  exact hf

end Sys2Proof.Machine

/-! ### The state: invariants, notifications and the cursor (spec/10_state.md)

The invariants that every step keeps are proved over the primitive operations of Laws/Reach.lean: `KeptByOperations` lists
what a predicate has to survive, and `KeptByOperations.step` is the one induction over what a step does. -/

namespace Sys2Proof.Machine

@[simp] theorem clearScreen_geom (s : State) : (clearScreen s).geom = s.geom := rfl
@[simp] theorem clearScreen_events (s : State) : (clearScreen s).events = s.events ++ [Event.clear] := rfl

/-! #### From the primitives to a step -/

/-- `P` survives everything a step is made of: taking a command off the port, a primitive operation, the answer to the host,
and latching a genuine fault record. -/
structure KeptByOperations (P : State → Prop) : Prop where
  withPending : ∀ {s : State} (p : List Instr), P s → P (s.withPending p)
  primitive : ∀ {s t : State}, Primitive s t → P s → P t
  withReply : ∀ {s : State} (r : Reply), P s → P (s.withReply r)
  withFault : ∀ {s : State} {r : OutOfRange}, r.Genuine s.geom → P s → P (s.withFault r)

namespace KeptByOperations

variable {P : State → Prop} {s t : State}

theorem reaches (hP : KeptByOperations P) (h : Reaches s t) (hs : P s) : P t := by
  induction h with
  | refl => exact hs
  | tail _ hstep ih => exact hP.primitive hstep ih

/-- From a state with the structural invariant, a step keeps whatever the operations keep. -/
theorem step (hP : KeptByOperations P) (hinv : s.Inv) (hs : P s) (h : step s = .next t) : P t := by
  obtain ⟨-, rfl⟩ | ⟨i, rest, -, -, hexec⟩ := step_next_cases h
  · exact hs
  · have hs' : P (s.withPending rest) := hP.withPending rest hs
    obtain ⟨r, hr, rfl⟩ | ⟨u, r, hreach, rfl⟩ :=
      exec_next_cases (s := s.withPending rest) hinv.geom_valid hinv.cursor_lt hexec
    · exact hP.withReply _ (hP.withFault hr hs')
    · exact hP.withReply _ (hP.reaches hreach hs')

end KeptByOperations

/-! #### The structural invariant -/

theorem Memory.nil_wf : Memory.wf [] := ⟨List.Pairwise.nil, nofun⟩

theorem Memory.nil_within (n : Nat) : Memory.within n [] := nofun

theorem Primitive.inv {s t : State} (h : Primitive s t) (hs : s.Inv) : t.Inv := by
  obtain ⟨hgeom, hwf, hwithin, hcursor, hfault⟩ := hs
  cases h with
  | update i v hi =>
    refine ⟨?_, update_wf i v s hwf, ?_, ?_, ?_⟩
    · rwa [update_geom]
    · rw [update_geom]
      exact update_within i v s hwithin hi
    · rwa [update_geom, update_cursor]
    · rwa [update_geom, update_fault]
  | move c hc => exact ⟨hgeom, hwf, hwithin, hc, hfault⟩
  | scroll => exact ⟨hgeom, scroll_wf s hwf, scroll_within s, hcursor, hfault⟩
  | clear => exact ⟨hgeom, Memory.nil_wf, Memory.nil_within _, charsLen_pos hgeom, hfault⟩

theorem State.Inv.withFault {s : State} {r : OutOfRange} (hs : s.Inv) (hr : r.Genuine s.geom) :
    (s.withFault r).Inv where
  geom_valid := hs.geom_valid
  buf_wf := hs.buf_wf
  buf_within := hs.buf_within
  cursor_lt := hs.cursor_lt
  fault_genuine _ h := Option.some.inj h ▸ hr

/-- Neither the port nor the reply is part of the structural invariant. -/
theorem inv_keptByOperations : KeptByOperations State.Inv where
  withPending _ := fun ⟨hgeom, hwf, hwithin, hcursor, hfault⟩ => ⟨hgeom, hwf, hwithin, hcursor, hfault⟩
  primitive := Primitive.inv
  withReply _ := fun ⟨hgeom, hwf, hwithin, hcursor, hfault⟩ => ⟨hgeom, hwf, hwithin, hcursor, hfault⟩
  withFault hr hs := hs.withFault hr

/-- Settles O10: the four primitives keep the invariant, and only a genuine record is latched. -/
theorem everyStepKeepsTheInvariant : Obligations.EveryStepKeepsTheInvariant := by
  unfold Obligations.EveryStepKeepsTheInvariant
  intro s t hinv h
  exact inv_keptByOperations.step hinv hinv h

/-! #### The Renderer's surface -/

/-- Replaying one notification more is applying it last. -/
theorem Surface.replay_concat (g : Geometry) (σ : Surface) (log : List Event) (e : Event) :
    Surface.replay g σ (log ++ [e]) = Surface.apply g (Surface.replay g σ log) e := by
  simp [Surface.replay]

/-- An operation that sends one notification keeps the display when that notification redraws what it wrote. -/
theorem State.DisplayShowsBuffer.of_sent {s t : State} {e : Event} (hgeom : t.geom = s.geom)
    (hevents : t.events = s.events ++ [e])
    (hdrawn : ∀ k, k < s.geom.charsLen →
      Surface.apply s.geom (Surface.replay s.geom Surface.blank s.events) e k = readCell t k) :
    t.DisplayShowsBuffer := by
  intro k hk
  rw [hgeom, hevents, Surface.replay_concat]
  exact hdrawn k (hgeom ▸ hk)

/-- An update that changes the cell sends the one notification of it. -/
theorem update_events_of_ne {i : Nat} {v : Byte} {s : State} (h : readCell s i ≠ v) :
    (update i v s).events = s.events ++ [Event.cellChanged i (readCell s i) v] := by
  rw [update_events, if_neg h]

theorem Primitive.displayShowsBuffer {s t : State} (h : Primitive s t) (hs : s.DisplayShowsBuffer) :
    t.DisplayShowsBuffer := by
  cases h with
  | update i v hi =>
    by_cases hv : readCell s i = v
    · rwa [update_of_read_eq i v s hv]
    · refine .of_sent (update_geom i v s) (update_events_of_ne hv) fun k hk => ?_
      rw [readCell_update, ← hs k hk]
      rfl
  | move c hc => exact hs
  | scroll =>
    refine .of_sent (scroll_geom s) (scroll_events s) fun k hk => ?_
    rw [readCell_scroll]
    by_cases hrow : k + s.geom.lineWidth < s.geom.charsLen
    · rw [if_pos hrow, ← hs _ hrow]
      exact if_pos hrow
    · rw [if_neg hrow]
      exact if_neg hrow
  | clear => exact .of_sent (clearScreen_geom s) (clearScreen_events s) fun k _ => (readCell_clearScreen s k).symm

/-- The display speaks of geometry, cells and notifications alone. -/
theorem displayShowsBuffer_keptByOperations : KeptByOperations State.DisplayShowsBuffer where
  withPending _ hs := hs
  primitive := Primitive.displayShowsBuffer
  withReply _ hs := hs
  withFault _ hs := hs

/-- Settles O11: each primitive sends the notification that redraws what it wrote. -/
theorem everyStepKeepsTheDisplayConsistent : Obligations.EveryStepKeepsTheDisplayConsistent := by
  unfold Obligations.EveryStepKeepsTheDisplayConsistent
  intro s t hinv hdisplay h
  exact displayShowsBuffer_keptByOperations.step hinv hdisplay h

/-! #### The log of notifications -/

/-- One notification more keeps the log truthful when it is true of the surface the log before it makes. -/
theorem State.LogTruthful.of_sent {s t : State} {e : Event} (hs : s.LogTruthful) (hgeom : t.geom = s.geom)
    (hevents : t.events = s.events ++ [e])
    (htrue : ∀ pos old new, e = .cellChanged pos old new →
      pos < s.geom.charsLen ∧ old ≠ new ∧ Surface.replay s.geom Surface.blank s.events pos = old) :
    t.LogTruthful := by
  intro before pos old new after hsplit
  rw [hevents] at hsplit
  rw [hgeom]
  obtain rfl | ⟨after', last, rfl⟩ := after.eq_nil_or_concat'
  · obtain ⟨rfl, hlast⟩ := List.append_inj' hsplit rfl
    exact htrue pos old new (List.head_eq_of_cons_eq hlast)
  · rw [← List.cons_append, ← List.append_assoc] at hsplit
    exact hs before pos old new after' (List.append_inj' hsplit rfl).1

/-- A log is kept truthful only together with the display: that the cell showed `old` is what the display says of the
cell `Update` read. -/
theorem Primitive.logTruthful {s t : State} (h : Primitive s t) (hdisplay : s.DisplayShowsBuffer)
    (hs : s.LogTruthful) : t.LogTruthful := by
  cases h with
  | update i v hi =>
    by_cases hv : readCell s i = v
    · rwa [update_of_read_eq i v s hv]
    · refine hs.of_sent (update_geom i v s) (update_events_of_ne hv) ?_
      rintro pos old new ⟨⟩
      exact ⟨hi, hv, hdisplay i hi⟩
  | move c hc => exact hs
  | scroll => exact hs.of_sent (scroll_geom s) (scroll_events s) nofun
  | clear => exact hs.of_sent (clearScreen_geom s) (clearScreen_events s) nofun

theorem display_and_log_keptByOperations :
    KeptByOperations fun s => s.DisplayShowsBuffer ∧ s.LogTruthful where
  withPending _ hs := hs
  primitive h := fun ⟨hdisplay, hlog⟩ => ⟨h.displayShowsBuffer hdisplay, h.logTruthful hdisplay hlog⟩
  withReply _ hs := hs
  withFault _ hs := hs

/-- Settles O12: kept together with the display, which says what each cell showed. -/
theorem everyStepKeepsTheLogTruthful : Obligations.EveryStepKeepsTheLogTruthful := by
  unfold Obligations.EveryStepKeepsTheLogTruthful
  intro s t hinv hdisplay hlog h
  exact (display_and_log_keptByOperations.step hinv ⟨hdisplay, hlog⟩ h).2

/-! #### Construction -/

@[simp] theorem readCell_fresh (g : Geometry) (k : Nat) : readCell (State.fresh g) k = Config.blank := rfl

theorem fresh_inv {g : Geometry} (hg : g.Valid) : (State.fresh g).Inv where
  geom_valid := hg
  buf_wf := Memory.nil_wf
  buf_within := Memory.nil_within _
  cursor_lt := charsLen_pos hg
  fault_genuine := nofun

theorem fresh_displayShowsBuffer (g : Geometry) : (State.fresh g).DisplayShowsBuffer := fun _ _ => rfl

theorem fresh_logTruthful (g : Geometry) : (State.fresh g).LogTruthful := by
  intro before pos old new after h
  simp at h

theorem referenceGeometry_valid : Config.referenceGeometry.Valid := by decide

theorem construct_of_valid {g : Geometry} (hg : g.Valid) : State.construct g = .next (State.fresh g) := if_pos hg

theorem construct_of_not_valid {g : Geometry} (hg : ¬ g.Valid) : State.construct g = .refused .badGeometry := if_neg hg

/-- Settles O8: a legal geometry gives the fresh state, whose cells are all unlisted, and no other is built. -/
theorem constructionState : Obligations.ConstructionState := by
  unfold Obligations.ConstructionState
  refine ⟨fun g hg => ?_, fun g hg => construct_of_not_valid hg, construct_of_valid referenceGeometry_valid⟩
  have hcells (k : Nat) : readCell (State.fresh g) k = 32#8 := readCell_fresh g k
  have hglyphs (k : Nat) : graphicsMode (readCell (State.fresh g) k) = false := by
    rw [hcells]
    decide
  exact ⟨State.fresh g, construct_of_valid hg, rfl, hcells, hglyphs, rfl, rfl, rfl, rfl, rfl⟩

/-- Settles O9: with no cell listed and nothing sent, each invariant holds of a fresh state. -/
theorem constructionMeetsTheInvariants : Obligations.ConstructionMeetsTheInvariants := by
  unfold Obligations.ConstructionMeetsTheInvariants
  have hfresh (g : Geometry) (hg : g.Valid) :
      (State.fresh g).Inv ∧ (State.fresh g).DisplayShowsBuffer ∧ (State.fresh g).LogTruthful :=
    ⟨fresh_inv hg, fresh_displayShowsBuffer g, fresh_logTruthful g⟩
  exact ⟨hfresh, hfresh Config.referenceGeometry referenceGeometry_valid⟩

/-! #### A faulted block -/

theorem exec_of_faulted {s : State} {r : OutOfRange} (hf : s.fault = some r) (i : Instr) :
    exec i s = .refused .blockFaulted := by
  rw [exec_eq_accept, accept_faulted s _ hf]

/-- A run of a faulted block that answers a next state has only idled. -/
theorem runSteps_next_eq_of_faulted {s t : State} {r : OutOfRange} (hf : s.fault = some r) (n : Nat)
    (h : runSteps n s = .next t) : t = s := by
  induction n with
  | zero => exact (Host.Outcome.next.inj h).symm
  | succ n ih =>
    rw [runSteps_succ] at h
    cases hstep : step s with
    | next u =>
      rw [hstep, step_next_eq_of_faulted hf hstep] at h
      exact ih h
    | fault x => cases x
    | refused x =>
      rw [hstep] at h
      cases h

/-- Settles O53: every instruction is refused, and so every step of a run is idle. -/
theorem faultedBlockIsQuiescent : Obligations.FaultedBlockIsQuiescent := by
  unfold Obligations.FaultedBlockIsQuiescent
  intro s r hf
  exact ⟨exec_of_faulted hf, fun n t => runSteps_next_eq_of_faulted hf n⟩

end Sys2Proof.Machine

/-! ### What a command does to the cursor and what it sends (spec/10_state.md R23, R26)

`effectOf` names the operation an instruction runs when it does not raise, and `exec_next_effectOf` ties it to `exec`
with no premise on the state. What only some instructions do is then read off the effects. -/

namespace Sys2Proof.Machine

/-- The operation an instruction runs on the block when it does not raise; the commands that only read run none. -/
def effectOf (i : Instr) (s : State) : State :=
  match i with
  | .bs => streamAction .bs s
  | .lf => streamAction .lf s
  | .cr => streamAction .cr s
  | .left => streamAction .left s
  | .right => streamAction .right s
  | .down => streamAction .down s
  | .up => streamAction .up s
  | .home => streamAction .home s
  | .sol => streamAction .sol s
  | .eol => streamAction .eol s
  | .eos => streamAction .eos s
  | .tabc t => streamAction (.tabc t) s
  | .glyph c => streamAction (.glyph c) s
  | .cls => clearScreen s
  | .print codes => printStream codes s
  | .printAt pos codes => printStream codes (s.withCursor pos.toNat)
  | .tab _ => s
  | .set x y => update (pixelCell s.geom x y) (pixelOn (readCell s (pixelCell s.geom x y)) (pixelBit x y)) s
  | .reset x y => update (pixelCell s.geom x y) (pixelOff (readCell s (pixelCell s.geom x y)) (pixelBit x y)) s
  | .point _ _ => s
  | .peek _ => s
  | .poke addr v => memWrite addr v s
  | .bufGet _ => s
  | .bufSet pos v => update pos.toNat v s

/-! #### Stream actions as one case -/

theorem acceptedBody_toInstr (op : StreamOp) (s : State) :
    acceptedBody op.toInstr s = complete .done (streamAction op s) := by
  cases op <;> rfl

theorem effectOf_toInstr (op : StreamOp) (s : State) : effectOf op.toInstr s = streamAction op s := by
  cases op <;> rfl

/-- Case analysis on an instruction with the thirteen stream actions as one case. -/
theorem instr_cases_by_kind {motive : Instr → Prop} (stream : ∀ op : StreamOp, motive op.toInstr)
    (cls : motive .cls) (print : ∀ codes, motive (.print codes)) (printAt : ∀ pos codes, motive (.printAt pos codes))
    (tab : ∀ n, motive (.tab n)) (set : ∀ x y, motive (.set x y)) (reset : ∀ x y, motive (.reset x y))
    (point : ∀ x y, motive (.point x y)) (peek : ∀ addr, motive (.peek addr))
    (poke : ∀ addr v, motive (.poke addr v)) (bufGet : ∀ pos, motive (.bufGet pos))
    (bufSet : ∀ pos v, motive (.bufSet pos v)) (i : Instr) : motive i := by
  cases i with
  | bs => exact stream .bs
  | lf => exact stream .lf
  | cr => exact stream .cr
  | left => exact stream .left
  | right => exact stream .right
  | down => exact stream .down
  | up => exact stream .up
  | home => exact stream .home
  | sol => exact stream .sol
  | eol => exact stream .eol
  | eos => exact stream .eos
  | tabc n => exact stream (.tabc n)
  | glyph c => exact stream (.glyph c)
  | cls => exact cls
  | print codes => exact print codes
  | printAt pos codes => exact printAt pos codes
  | tab n => exact tab n
  | set x y => exact set x y
  | reset x y => exact reset x y
  | point x y => exact point x y
  | peek addr => exact peek addr
  | poke addr v => exact poke addr v
  | bufGet pos => exact bufGet pos
  | bufSet pos v => exact bufSet pos v

/-- From any state, an instruction that answers a next state has run its effect and answered, or has only raised. -/
theorem exec_next_effectOf {i : Instr} {s t : State} (h : exec i s = .next t) :
    (∃ r, t = (effectOf i s).withReply r) ∨ ∃ x, t = (s.withFault x).withReply (.outOfRange x) := by
  have completed {r : Reply} (h : complete r (effectOf i s) = .next t) :
      (∃ r, t = (effectOf i s).withReply r) ∨ ∃ x, t = (s.withFault x).withReply (.outOfRange x) :=
    .inl ⟨r, complete_next.mp h⟩
  have checked {p : Prop} [Decidable p] {r : Reply} {x : OutOfRange}
      (h : (if p then complete r (effectOf i s) else raiseOutOfRange x s) = .next t) :
      (∃ r, t = (effectOf i s).withReply r) ∨ ∃ x, t = (s.withFault x).withReply (.outOfRange x) := by
    split at h
    · exact completed h
    · exact .inr ⟨x, raiseOutOfRange_next.mp h⟩
  obtain ⟨-, hbody⟩ := exec_next h
  cases i using instr_cases_by_kind with
  | stream op =>
    rw [acceptedBody_toInstr, ← effectOf_toInstr] at hbody
    exact completed hbody
  | cls | print | peek | poke => exact completed hbody
  | printAt | tab | set | reset | point | bufGet | bufSet => exact checked hbody

/-! #### The cursor -/

@[simp] theorem memWrite_cursor (addr : Int) (v : Byte) (s : State) : (memWrite addr v s).cursor = s.cursor := by
  unfold memWrite
  split
  · exact update_cursor _ v s
  · rfl

/-- The instructions that write the cursor: the stream actions, CLS and the printing commands (spec/10_state.md R23). -/
def MayMoveCursor (i : Instr) : Prop :=
  i = .cls ∨ (∃ codes, i = .print codes) ∨ (∃ pos codes, i = .printAt pos codes) ∨ i.isCommand = false

theorem isCommand_toInstr (op : StreamOp) : op.toInstr.isCommand = false := by cases op <;> rfl

/-- The instructions that do not write the cursor run updates and reads. -/
theorem mayMoveCursor_or_effectOf_cursor (i : Instr) (s : State) :
    MayMoveCursor i ∨ (effectOf i s).cursor = s.cursor := by
  cases i using instr_cases_by_kind with
  | stream op => exact .inl (.inr (.inr (.inr (isCommand_toInstr op))))
  | cls => exact .inl (.inl rfl)
  | print codes => exact .inl (.inr (.inl ⟨codes, rfl⟩))
  | printAt pos codes => exact .inl (.inr (.inr (.inl ⟨pos, codes, rfl⟩)))
  | set | reset | bufSet => exact .inr (update_cursor ..)
  | poke addr v => exact .inr (memWrite_cursor addr v s)
  | tab | point | peek | bufGet => exact .inr rfl

/-- Settles O15: the other commands' effects are updates and reads, and raising leaves the cursor. -/
theorem onlyPrintingAndClsMoveTheCursor : Obligations.OnlyPrintingAndClsMoveTheCursor := by
  unfold Obligations.OnlyPrintingAndClsMoveTheCursor
  intro s t h hmoved
  obtain ⟨-, rfl⟩ | ⟨i, rest, hpending, -, hexec⟩ := step_next_cases h
  · exact absurd rfl hmoved
  · refine ⟨i, rest, hpending, ?_⟩
    obtain ⟨r, rfl⟩ | ⟨x, rfl⟩ := exec_next_effectOf hexec
    · exact (mayMoveCursor_or_effectOf_cursor i (s.withPending rest)).resolve_right hmoved
    · exact absurd rfl hmoved

/-! #### The notifications -/

/-- `t` has the notifications of `s` with perhaps more at the end, and each new one is of a kind in `A`. -/
def State.Sends (A : Event → Prop) (s t : State) : Prop := ∃ new, t.events = s.events ++ new ∧ ∀ e ∈ new, A e

namespace State.Sends

variable {A : Event → Prop} {s t u : State}

/-- The same notifications: nothing is sent. -/
theorem of_events_eq (h : t.events = s.events) : s.Sends A t := ⟨[], by rw [h, List.append_nil], nofun⟩

theorem of_one {e : Event} (h : t.events = s.events ++ [e]) (he : A e) : s.Sends A t :=
  ⟨[e], h, fun _ hmem => List.mem_singleton.mp hmem ▸ he⟩

theorem trans (hst : s.Sends A t) (htu : t.Sends A u) : s.Sends A u := by
  obtain ⟨new, ht, hnew⟩ := hst
  obtain ⟨later, hu, hlater⟩ := htu
  refine ⟨new ++ later, by rw [hu, ht, List.append_assoc], fun e he => ?_⟩
  exact (List.mem_append.mp he).elim (hnew e) (hlater e)

/-! Updates, and what is made of them, send `CellChanged` alone. -/

variable (hA : ∀ pos old new, A (.cellChanged pos old new))
include hA

theorem update (i : Nat) (v : Byte) (s : State) :
    s.Sends A (update i v s) := by
  by_cases hv : readCell s i = v
  · exact of_events_eq (by rw [update_of_read_eq i v s hv])
  · exact of_one (update_events_of_ne hv) (hA ..)

theorem blankRange (a b : Nat) (s : State) :
    s.Sends A (blankRange a b s) := by
  refine ⟨blankEvents s a (b - a), blankRange_events a b s, fun e he => ?_⟩
  obtain ⟨k, -, rfl⟩ := List.mem_map.mp he
  exact hA ..

theorem memWrite (addr : Int) (v : Byte) (s : State) :
    s.Sends A (memWrite addr v s) := by
  unfold Machine.memWrite
  split
  · exact update hA _ v s
  · exact of_events_eq rfl

theorem newLine (hscroll : A .scroll) (s : State) :
    s.Sends A (newLine s) := by
  have hblank := blankRange hA s.cursor (rowStart s.geom (rowOf s.geom s.cursor + 1)) s
  unfold Machine.newLine
  simp only
  split
  · exact hblank.trans (of_events_eq rfl)
  · exact hblank.trans (of_one rfl hscroll)

/-- A stream action sends `CellChanged`, and `Scroll` only from a new line or a glyph. -/
theorem streamAction (op : StreamOp) (hscroll : op = .lf ∨ op = .cr ∨ (∃ c, op = .glyph c) → A .scroll)
    (s : State) : s.Sends A (streamAction op s) := by
  cases op with
  | lf => exact newLine hA (hscroll (.inl rfl)) s
  | cr => exact newLine hA (hscroll (.inr (.inl rfl))) s
  | glyph c =>
    have hwrite := update hA s.cursor c s
    simp only [Machine.streamAction, streamGlyph]
    split
    · exact hwrite.trans (of_one rfl (hscroll (.inr (.inr ⟨c, rfl⟩))))
    · exact hwrite.trans (of_events_eq rfl)
  | bs => exact update hA _ _ (s.withCursor _)
  | eol => exact blankRange hA _ _ s
  | eos => exact blankRange hA _ _ s
  | tabc n =>
    simp only [Machine.streamAction, streamTabc]
    split <;> exact of_events_eq rfl
  | left | right | down | up | home | sol => exact of_events_eq rfl

theorem printStream (hscroll : A .scroll) (codes : List Byte)
    (s : State) : s.Sends A (printStream codes s) := by
  induction codes generalizing s with
  | nil => exact of_events_eq rfl
  | cons c rest ih => exact (streamAction hA (decodeCode c) (fun _ => hscroll) s).trans (ih (streamStep c s))

end State.Sends

/-- What an instruction may send: `CellChanged` always, `Clear` as CLS, `Scroll` as a new line, a glyph or a printing
command. -/
def MaySend (i : Instr) : Event → Prop
  | .cellChanged _ _ _ => True
  | .clear => i = .cls
  | .scroll => i = .lf ∨ i = .cr ∨ (∃ c, i = .glyph c) ∨ (∃ codes, i = .print codes) ∨
      ∃ pos codes, i = .printAt pos codes

theorem maySend_cellChanged (i : Instr) (pos : Nat) (old new : Byte) :
    MaySend i (.cellChanged pos old new) := trivial

/-- The instruction of a stream action may scroll when the action may. -/
theorem maySend_scroll_of_op {op : StreamOp} (h : op = .lf ∨ op = .cr ∨ (∃ c, op = .glyph c)) :
    MaySend op.toInstr .scroll := by
  obtain rfl | rfl | ⟨c, rfl⟩ := h
  · exact .inl rfl
  · exact .inr (.inl rfl)
  · exact .inr (.inr (.inl ⟨c, rfl⟩))

theorem effectOf_sends (i : Instr) (s : State) : s.Sends (MaySend i) (effectOf i s) := by
  have hcell := maySend_cellChanged i
  cases i using instr_cases_by_kind with
  | stream op =>
    rw [effectOf_toInstr]
    exact .streamAction hcell op maySend_scroll_of_op s
  | cls => exact .of_one (clearScreen_events s) rfl
  | print codes => exact .printStream hcell (.inr (.inr (.inr (.inl ⟨codes, rfl⟩)))) codes s
  | printAt pos codes =>
    exact .printStream hcell (.inr (.inr (.inr (.inr ⟨pos, codes, rfl⟩)))) codes (s.withCursor pos.toNat)
  | set | reset | bufSet => exact .update hcell _ _ s
  | poke addr v => exact .memWrite hcell addr v s
  | tab | point | peek | bufGet => exact .of_events_eq rfl

theorem exec_next_sends {i : Instr} {s t : State} (h : exec i s = .next t) : s.Sends (MaySend i) t := by
  obtain ⟨r, rfl⟩ | ⟨x, rfl⟩ := exec_next_effectOf h
  · exact effectOf_sends i s
  · exact .of_events_eq rfl

/-- Settles O14: what each effect may send, and raising sends nothing. -/
theorem onlyTheNamedInstructionsClearOrScroll : Obligations.OnlyTheNamedInstructionsClearOrScroll := by
  unfold Obligations.OnlyTheNamedInstructionsClearOrScroll
  intro i s t h
  obtain ⟨new, hevents, hsent⟩ := exec_next_sends h
  exact ⟨new, hevents, hsent .clear, hsent .scroll⟩

end Sys2Proof.Machine

/-! ### The history of notifications (spec/10_state.md section 6)

Every operation commutes with putting a history of notifications before those of the state, up to `step`. Two states that
only their history tells apart are one state behind two histories. -/

namespace Sys2Proof.Machine

/-- `s` with the notifications of `log` sent before its own. -/
def State.behind (log : List Event) (s : State) : State := { s with events := log ++ s.events }

/-- The outcome with `log` sent before the notifications of a next state. -/
def outcomeBehind (log : List Event) : Exec → Exec
  | .next s => .next (s.behind log)
  | .fault r => .fault r
  | .refused r => .refused r

section Behind

variable (log : List Event) (s : State)

@[simp] theorem State.behind_geom : (s.behind log).geom = s.geom := rfl
@[simp] theorem State.behind_cursor : (s.behind log).cursor = s.cursor := rfl
@[simp] theorem State.behind_fault : (s.behind log).fault = s.fault := rfl
@[simp] theorem State.behind_pending : (s.behind log).pending = s.pending := rfl
@[simp] theorem readCell_behind (k : Nat) : readCell (s.behind log) k = readCell s k := rfl

theorem withCursor_behind (c : Nat) : (s.behind log).withCursor c = (s.withCursor c).behind log := rfl

theorem emit_behind (e : Event) : emit e (s.behind log) = (emit e s).behind log := by
  simp [emit, State.withEvent, State.behind]

theorem scroll_behind : scroll (s.behind log) = (scroll s).behind log :=
  emit_behind log (s.withBuf (s.buf.scrolled s.geom)) .scroll

theorem clearScreen_behind : clearScreen (s.behind log) = (clearScreen s).behind log :=
  emit_behind log ((s.withBuf []).withCursor 0) .clear

theorem update_behind (i : Nat) (v : Byte) : update i v (s.behind log) = (update i v s).behind log := by
  unfold update
  rw [readCell_behind]
  split
  · rfl
  · exact emit_behind log (s.withBuf (s.buf.write i v)) _

theorem blankFrom_behind (a n : Nat) : blankFrom a n (s.behind log) = (blankFrom a n s).behind log := by
  induction n generalizing a s with
  | zero => rfl
  | succ n ih => rw [blankFrom, update_behind, ih]; rfl

theorem blankRange_behind (a b : Nat) : blankRange a b (s.behind log) = (blankRange a b s).behind log :=
  blankFrom_behind log s a (b - a)

theorem memWrite_behind (addr : Int) (v : Byte) :
    memWrite addr v (s.behind log) = (memWrite addr v s).behind log := by
  unfold memWrite
  rw [State.behind_geom]
  split
  · exact update_behind log s _ v
  · rfl

theorem newLine_behind : newLine (s.behind log) = (newLine s).behind log := by
  unfold newLine
  simp only [State.behind_geom, State.behind_cursor, blankRange_behind, scroll_behind, withCursor_behind]
  split <;> rfl

theorem streamAction_behind (op : StreamOp) :
    streamAction op (s.behind log) = (streamAction op s).behind log := by
  cases op with
  | bs => exact update_behind log (s.withCursor _) _ _
  | lf => exact newLine_behind log s
  | cr => exact newLine_behind log s
  | eol => exact blankRange_behind log s _ _
  | eos => exact blankRange_behind log s _ _
  | tabc n =>
    exact (apply_ite (State.behind log) (n < s.geom.lineWidth ∧ colOf s.geom s.cursor < n)
      (s.withCursor (rowStart s.geom (rowOf s.geom s.cursor) + n)) s).symm
  | glyph c =>
    simp only [streamAction, streamGlyph, State.behind_geom, State.behind_cursor, update_behind, scroll_behind]
    split <;> rfl
  | left | right | down | up | home | sol => rfl

theorem printStream_behind (codes : List Byte) :
    printStream codes (s.behind log) = (printStream codes s).behind log := by
  induction codes generalizing s with
  | nil => rfl
  | cons c rest ih => rw [printStream, streamStep, streamAction_behind, ih]; rfl

theorem effectOf_behind (i : Instr) :
    effectOf i (s.behind log) = (effectOf i s).behind log := by
  cases i using instr_cases_by_kind with
  | stream op => rw [effectOf_toInstr, effectOf_toInstr, streamAction_behind]
  | cls => exact clearScreen_behind log s
  | print codes => exact printStream_behind log s codes
  | printAt pos codes => exact printStream_behind log (s.withCursor pos.toNat) codes
  | set | reset | bufSet => exact update_behind log s _ _
  | poke addr v => exact memWrite_behind log s addr v
  | tab | point | peek | bufGet => rfl

theorem acceptedBody_behind (i : Instr) :
    acceptedBody i (s.behind log) = outcomeBehind log (acceptedBody i s) := by
  have completed (r : Reply) :
      complete r (effectOf i (s.behind log)) = outcomeBehind log (complete r (effectOf i s)) := by
    rw [effectOf_behind]; rfl
  have checked (p : Prop) [Decidable p] (r : Reply) (x : OutOfRange) :
      (if p then complete r (effectOf i (s.behind log)) else raiseOutOfRange x (s.behind log)) =
        outcomeBehind log (if p then complete r (effectOf i s) else raiseOutOfRange x s) := by
    split
    · exact completed r
    · rfl
  cases i using instr_cases_by_kind with
  | stream op =>
    rw [acceptedBody_toInstr, acceptedBody_toInstr, ← effectOf_toInstr, ← effectOf_toInstr]
    exact completed .done
  | cls | print | peek | poke => exact completed _
  | printAt | tab | set | reset | point | bufGet | bufSet => exact checked _ _ _

theorem exec_behind (i : Instr) : exec i (s.behind log) = outcomeBehind log (exec i s) := by
  rw [exec_eq_accept, exec_eq_accept]
  unfold accept
  rw [State.behind_fault]
  split
  · exact acceptedBody_behind log s i
  · rfl

theorem step_behind : step (s.behind log) = outcomeBehind log (step s) := by
  unfold step fetch
  rw [State.behind_pending]
  cases s.pending with
  | nil => rfl
  | cons i rest =>
    simp only
    split
    · exact exec_behind log (s.withPending rest) i
    · rfl

end Behind

/-- `s` with no notification sent. -/
def State.withoutLog (s : State) : State := { s with events := [] }

theorem State.withoutLog_behind (s : State) : s.withoutLog.behind s.events = s := by
  simp [State.withoutLog, State.behind]

theorem State.SameButLog.withoutLog_eq {s t : State} (h : s.SameButLog t) : t.withoutLog = s.withoutLog := by
  obtain ⟨hgeom, hbuf, hcursor, hfault, hpending, hreply⟩ := h
  exact State.eq_of_fields _ _ hgeom hbuf hcursor hfault rfl hpending hreply

theorem State.behind_sameButLog (s : State) (log log' : List Event) : (s.behind log).SameButLog (s.behind log') :=
  ⟨rfl, rfl, rfl, rfl, rfl, rfl⟩

/-- A step is the step of the state without its history, behind that history. -/
theorem step_eq_behind_withoutLog (s : State) : step s = outcomeBehind s.events (step s.withoutLog) := by
  rw [← step_behind, State.withoutLog_behind]

/-- Settles O55: both steps are the one step without a history, each behind its own. -/
theorem noStepLooksAtTheNotificationHistory : Obligations.NoStepLooksAtTheNotificationHistory := by
  unfold Obligations.NoStepLooksAtTheNotificationHistory
  intro s₁ s₂ h
  rw [step_eq_behind_withoutLog s₁, step_eq_behind_withoutLog s₂, h.withoutLog_eq]
  cases step s₁.withoutLog with
  | next t => exact ⟨t.behind_sameButLog s₁.events s₂.events, t.events, rfl, rfl⟩
  | fault r => cases r
  | refused r => rfl

end Sys2Proof.Machine

/-! ### The window, the pixels and the writes of one cell (spec/20_memory.md)

The two translations to a cell come first: the video window is a plain offset, and the pixels are the six bits of each
cell. `CellWrite` then names what POKE, BUF_SET, SET and RESET have in common, one `Update` of the cell they name by an
idempotent function of its code; what such a write does, and that repeating it changes nothing, is proved of it once. -/

namespace Sys2Proof.Machine

/-! #### The window (R41, R44, R45) -/

theorem translateAddr_eq_some_iff {g : Geometry} {addr : Int} {k : Nat} :
    translateAddr g addr = some k ↔ addr = Config.videoBase + k ∧ k < g.charsLen := by
  constructor
  · exact fun h => (translateAddr_some h).symm
  · rintro ⟨rfl, hk⟩
    exact translateAddr_window g k hk

theorem translateAddr_eq_none_iff {g : Geometry} {addr : Int} :
    translateAddr g addr = none ↔ addr < Config.videoBase ∨ Config.videoBase + g.charsLen ≤ addr := by
  simp only [translateAddr, ite_eq_right_iff, reduceCtorEq, imp_false]
  omega

theorem translateAddr_inside {g : Geometry} {addr : Int} (hlo : Config.videoBase ≤ addr)
    (hhi : addr < Config.videoBase + g.charsLen) :
    translateAddr g addr = some (addr - Config.videoBase).toNat := if_pos ⟨hlo, hhi⟩

theorem memRead_of_some {s : State} {addr : Int} {k : Nat} (h : translateAddr s.geom addr = some k) :
    memRead s addr = readCell s k := by
  rw [memRead, h]

theorem memRead_of_none {s : State} {addr : Int} (h : translateAddr s.geom addr = none) : memRead s addr = 0#8 := by
  rw [memRead, h]

theorem memWrite_of_some {s : State} {addr : Int} {k : Nat} (v : Byte) (h : translateAddr s.geom addr = some k) :
    memWrite addr v s = update k v s := by
  rw [memWrite, h]

theorem memWrite_of_none {s : State} {addr : Int} (v : Byte) (h : translateAddr s.geom addr = none) :
    memWrite addr v s = s := by
  rw [memWrite, h]

/-- Settles O43: both outcomes of the translation, with `Config.videoBase` at its value. -/
theorem windowTranslatesByAPlainOffset : Obligations.WindowTranslatesByAPlainOffset := by
  unfold Obligations.WindowTranslatesByAPlainOffset
  exact fun g addr => ⟨fun k => translateAddr_eq_some_iff, translateAddr_eq_none_iff⟩

/-! #### The pixels (R43) -/

theorem rowOf_rowStart_add {g : Geometry} (r : Nat) {c : Nat} (hc : c < g.lineWidth) :
    rowOf g (rowStart g r + c) = r := by
  rw [rowOf, rowStart, Nat.add_comm, Nat.add_mul_div_right _ _ (by omega), Nat.div_eq_of_lt hc, Nat.zero_add]

theorem colOf_rowStart_add {g : Geometry} (r : Nat) {c : Nat} (hc : c < g.lineWidth) :
    colOf g (rowStart g r + c) = c :=
  Nat.mul_add_mod_of_lt hc

/-- On a valid pixel the cell is the formula of R43 on integers. -/
theorem pixelCell_cast {g : Geometry} {x y : Int} (h : inPixelRange g x y) :
    (pixelCell g x y : Int) = y / 3 * (g.lineWidth : Int) + x / 2 := by
  obtain ⟨⟨hx, -⟩, hy, -⟩ := h
  unfold pixelCell
  push_cast
  rw [Int.toNat_of_nonneg hx, Int.toNat_of_nonneg hy]

/-- On a valid pixel the bit is the formula of R43 on integers. -/
theorem pixelBit_cast {g : Geometry} {x y : Int} (h : inPixelRange g x y) :
    (pixelBit x y : Int) = 2 * (y % 3) + x % 2 := by
  unfold pixelBit
  omega

/-- The pixel column of a cell's bit. -/
def pixelX (g : Geometry) (cell bit : Nat) : Nat := 2 * colOf g cell + bit % 2

/-- The pixel row of a cell's bit. -/
def pixelY (g : Geometry) (cell bit : Nat) : Nat := 3 * rowOf g cell + bit / 2

theorem pixelX_pixelY_inPixelRange {g : Geometry} {cell bit : Nat} (hg : g.Valid) (hcell : cell < g.charsLen)
    (hbit : bit < 6) : inPixelRange g (pixelX g cell bit) (pixelY g cell bit) := by
  have hrow := rowOf_lt hcell
  have hcol := colOf_lt cell hg
  unfold inPixelRange Geometry.pixW Geometry.pixH pixelX pixelY
  omega

theorem pixelCell_pixelX_pixelY (g : Geometry) (cell : Nat) {bit : Nat} (hbit : bit < 6) :
    pixelCell g (pixelX g cell bit) (pixelY g cell bit) = cell := by
  have hrow : pixelY g cell bit / 3 = rowOf g cell := by unfold pixelY; omega
  have hcol : pixelX g cell bit / 2 = colOf g cell := by unfold pixelX; omega
  rw [pixelCell, Int.toNat_natCast, Int.toNat_natCast, hrow, hcol]
  exact rowStart_add_colOf g cell

theorem pixelBit_pixelX_pixelY (g : Geometry) (cell : Nat) {bit : Nat} (hbit : bit < 6) :
    pixelBit (pixelX g cell bit) (pixelY g cell bit) = bit := by
  unfold pixelBit pixelX pixelY
  omega

/-- A valid pixel is the one of its cell and its bit. -/
theorem eq_pixelX_pixelY {g : Geometry} {x y : Int} (h : inPixelRange g x y) :
    x = pixelX g (pixelCell g x y) (pixelBit x y) ∧ y = pixelY g (pixelCell g x y) (pixelBit x y) := by
  obtain ⟨⟨hx, hxw⟩, hy, -⟩ := h
  have hcol : x.toNat / 2 < g.lineWidth := by unfold Geometry.pixW at hxw; omega
  have hcell : pixelCell g x y = rowStart g (y.toNat / 3) + x.toNat / 2 := rfl
  rw [pixelX, pixelY, hcell, rowOf_rowStart_add _ hcol, colOf_rowStart_add _ hcol]
  unfold pixelBit
  omega

/-- Settles O38: `pixelX` and `pixelY` are the inverse of `pixelCell` and `pixelBit`. -/
theorem pixelsAreTheSixBitsOfEachCell : Obligations.PixelsAreTheSixBitsOfEachCell := by
  unfold Obligations.PixelsAreTheSixBitsOfEachCell
  intro g hg
  constructor
  · intro x y h
    exact ⟨pixelCell_cast h, pixelBit_cast h, pixelCell_lt h, pixelBit_lt x y⟩
  · intro cell bit hcell hbit
    refine ⟨pixelX g cell bit, pixelY g cell bit, ⟨pixelX_pixelY_inPixelRange hg hcell hbit,
      pixelCell_pixelX_pixelY g cell hbit, pixelBit_pixelX_pixelY g cell hbit⟩, ?_⟩
    rintro x y h rfl rfl
    exact eq_pixelX_pixelY h

/-! #### The sub-pixel bits of a code (spec/30_encoding.md R62) -/

theorem getLsbD_bitMask (bit : Nat) {b : Nat} (hb : b < 8) : (bitMask bit).getLsbD b = (b == bit) := by
  rw [bitMask, ← BitVec.twoPow_eq, BitVec.getLsbD_twoPow, Bool.eq_iff_iff]
  simp only [Bool.and_eq_true, decide_eq_true_eq, beq_iff_eq]
  omega

theorem gfxBase_eq_bitMask : Config.gfxBase = bitMask 7 := rfl

theorem getLsbD_graphicsBase (old : Byte) {b : Nat} (hb : b < 8) :
    (graphicsBase old).getLsbD b = if old.getLsbD 7 then old.getLsbD b else b == 7 := by
  rw [graphicsBase, graphicsMode, apply_ite (fun c : Byte => c.getLsbD b), gfxBase_eq_bitMask, getLsbD_bitMask 7 hb]

theorem getLsbD_pixelOn (old : Byte) (bit : Nat) {b : Nat} (hb : b < 8) :
    (pixelOn old bit).getLsbD b = (b == bit || (if old.getLsbD 7 then old.getLsbD b else b == 7)) := by
  rw [pixelOn, BitVec.getLsbD_or, getLsbD_graphicsBase old hb, getLsbD_bitMask bit hb, Bool.or_comm]

theorem getLsbD_pixelOff (old : Byte) (bit : Nat) {b : Nat} (hb : b < 8) :
    (pixelOff old bit).getLsbD b = (b != bit && (if old.getLsbD 7 then old.getLsbD b else b == 7)) := by
  rw [pixelOff, BitVec.getLsbD_and, BitVec.getLsbD_not, getLsbD_graphicsBase old hb, getLsbD_bitMask bit hb,
    decide_eq_true hb, Bool.true_and, Bool.and_comm, bne]

/-- A graphics cell's code is what its pixel operations start from. -/
theorem graphicsBase_of_graphicsMode {c : Byte} (h : graphicsMode c = true) : graphicsBase c = c := if_pos h

theorem graphicsMode_pixelOn (old : Byte) (bit : Nat) : graphicsMode (pixelOn old bit) = true := by
  rw [graphicsMode, getLsbD_pixelOn old bit (by decide)]
  split <;> simp [*]

/-- Turning a sub-pixel off leaves bit 7 on, which is no sub-pixel. -/
theorem graphicsMode_pixelOff (old : Byte) {bit : Nat} (hbit : bit < 6) : graphicsMode (pixelOff old bit) = true := by
  have hne : 7 ≠ bit := by omega
  rw [graphicsMode, getLsbD_pixelOff old bit (by decide)]
  split <;> simp [*]

theorem pixelOn_pixelOn (old : Byte) (bit : Nat) : pixelOn (pixelOn old bit) bit = pixelOn old bit := by
  conv_lhs => rw [pixelOn, graphicsBase_of_graphicsMode (graphicsMode_pixelOn old bit), pixelOn, BitVec.or_assoc,
    BitVec.or_self]
  rfl

theorem pixelOff_pixelOff (old : Byte) {bit : Nat} (hbit : bit < 6) :
    pixelOff (pixelOff old bit) bit = pixelOff old bit := by
  conv_lhs => rw [pixelOff, graphicsBase_of_graphicsMode (graphicsMode_pixelOff old hbit), pixelOff, BitVec.and_assoc,
    BitVec.and_self]
  rfl

/-! #### What the memory commands answer in a running block -/

section Running

variable {s : State} (hs : s.Running)
include hs

theorem exec_peek (addr : Int) : exec (.peek addr) s = .next (s.withReply (.code (memRead s addr))) :=
  exec_running (.peek addr) hs

theorem exec_poke (addr : Int) (v : Byte) : exec (.poke addr v) s = .next ((memWrite addr v s).withReply .done) :=
  exec_running (.poke addr v) hs

theorem exec_poke_outside {addr : Int} (v : Byte) (h : translateAddr s.geom addr = none) :
    exec (.poke addr v) s = .next (s.withReply .done) := by
  rw [exec_poke hs, memWrite_of_none v h]

theorem exec_bufGet {pos : Int} (h : inBufRange s.geom pos) :
    exec (.bufGet pos) s = .next (s.withReply (.code (readCell s pos.toNat))) :=
  (exec_running (.bufGet pos) hs).trans (if_pos h)

theorem exec_bufSet {pos : Int} (v : Byte) (h : inBufRange s.geom pos) :
    exec (.bufSet pos v) s = .next ((update pos.toNat v s).withReply .done) :=
  (exec_running (.bufSet pos v) hs).trans (if_pos h)

theorem exec_set {x y : Int} (h : inPixelRange s.geom x y) :
    exec (.set x y) s = .next ((update (pixelCell s.geom x y)
      (pixelOn (readCell s (pixelCell s.geom x y)) (pixelBit x y)) s).withReply .done) :=
  (exec_running (.set x y) hs).trans (if_pos h)

theorem exec_reset {x y : Int} (h : inPixelRange s.geom x y) :
    exec (.reset x y) s = .next ((update (pixelCell s.geom x y)
      (pixelOff (readCell s (pixelCell s.geom x y)) (pixelBit x y)) s).withReply .done) :=
  (exec_running (.reset x y) hs).trans (if_pos h)

theorem exec_point {x y : Int} (h : inPixelRange s.geom x y) :
    exec (.point x y) s =
      .next (s.withReply (.truth (pixelLit (readCell s (pixelCell s.geom x y)) (pixelBit x y)))) :=
  (exec_running (.point x y) hs).trans (if_pos h)

end Running

/-! #### Writing one cell -/

/-- `t` comes from `s` by a command that wrote `v` to a cell and returned: that cell alone is written, its one
notification is sent on a change, and the rest but the reply is as before (spec/40_character_buffer.md R80). -/
def State.WroteCell (s : State) (cell : Nat) (v : Byte) (t : State) : Prop :=
  (∀ k, readCell t k = if k = cell then v else readCell s k) ∧ t.events = s.events ++ changeEvents s cell v ∧
    t.cursor = s.cursor ∧ s.KeepsControl t ∧ t.reply = some .done

theorem update_withReply_wroteCell (cell : Nat) (v : Byte) (s : State) :
    s.WroteCell cell v ((update cell v s).withReply .done) :=
  ⟨readCell_update cell v s, update_events cell v s, update_cursor cell v s,
    ⟨update_geom cell v s, update_fault cell v s, update_pending cell v s⟩, rfl⟩

/-- With geometry `g` the command `i` is one `Update` of `cell` by the idempotent function `f` of its code. -/
structure CellWrite (g : Geometry) (i : Instr) (cell : Nat) (f : Byte → Byte) : Prop where
  idempotent : ∀ c, f (f c) = f c
  exec_eq : ∀ s : State, s.Running → s.geom = g →
    exec i s = .next ((update cell (f (readCell s cell)) s).withReply .done)

namespace CellWrite

/-! The four commands. -/

theorem poke {g : Geometry} {addr : Int} {cell : Nat} (v : Byte) (h : translateAddr g addr = some cell) :
    CellWrite g (.poke addr v) cell fun _ => v where
  idempotent _ := rfl
  exec_eq s hs hg := by rw [exec_poke hs, memWrite_of_some v (hg ▸ h)]

theorem bufSet {g : Geometry} {pos : Int} (v : Byte) (h : inBufRange g pos) :
    CellWrite g (.bufSet pos v) pos.toNat fun _ => v where
  idempotent _ := rfl
  exec_eq _ hs hg := exec_bufSet hs v (hg ▸ h)

theorem set {g : Geometry} {x y : Int} (h : inPixelRange g x y) :
    CellWrite g (.set x y) (pixelCell g x y) (pixelOn · (pixelBit x y)) where
  idempotent c := pixelOn_pixelOn c _
  exec_eq s hs hg := by subst hg; exact exec_set hs h

theorem reset {g : Geometry} {x y : Int} (h : inPixelRange g x y) :
    CellWrite g (.reset x y) (pixelCell g x y) (pixelOff · (pixelBit x y)) where
  idempotent c := pixelOff_pixelOff c (pixelBit_lt x y)
  exec_eq s hs hg := by subst hg; exact exec_reset hs h

/-! What such a write does. -/

variable {s t : State} {i : Instr} {cell : Nat} {f : Byte → Byte}

theorem exists_wroteCell (h : CellWrite s.geom i cell f) (hs : s.Running) :
    ∃ t, exec i s = .next t ∧ s.WroteCell cell (f (readCell s cell)) t :=
  ⟨_, h.exec_eq s hs rfl, update_withReply_wroteCell ..⟩

theorem wroteCell (h : CellWrite s.geom i cell f) (ht : exec i s = .next t) :
    s.WroteCell cell (f (readCell s cell)) t := by
  obtain ⟨u, hu, hwrote⟩ := h.exists_wroteCell (exec_next ht).1
  cases hu.symm.trans ht
  exact hwrote

/-- A write that would not change the cell only answers. -/
theorem exec_of_fixed (h : CellWrite s.geom i cell f) (hs : s.Running) (hf : f (readCell s cell) = readCell s cell) :
    exec i s = .next (s.withReply .done) := by
  rw [h.exec_eq s hs rfl, update_of_read_eq _ _ _ hf.symm]

/-- Repeated, the write finds the code it would write. -/
theorem exec_again (h : CellWrite s.geom i cell f) (ht : exec i s = .next t) : exec i t = .next t := by
  obtain ⟨hcells, -, -, ⟨hgeom, hfault, -⟩, hreply⟩ := h.wroteCell ht
  have hrunning : t.Running := hfault.trans (exec_next ht).1
  have hfixed : f (readCell t cell) = readCell t cell := by rw [hcells, if_pos rfl, h.idempotent]
  rw [exec_of_fixed (hgeom ▸ h) hrunning hfixed]
  exact congrArg _ (State.eq_of_fields _ _ rfl rfl rfl rfl rfl rfl hreply.symm)

/-- The write changes nothing but the reply, or it changes its cell and sends that cell's notification. -/
theorem only_answers_or_changes (h : CellWrite s.geom i cell f) (ht : exec i s = .next t) :
    t = s.withReply .done ∨
      readCell t cell ≠ readCell s cell ∧ (∀ k, k ≠ cell → readCell t k = readCell s k) ∧
        t.events = s.events ++ [Event.cellChanged cell (readCell s cell) (readCell t cell)] ∧
        t.cursor = s.cursor ∧ s.KeepsControl t ∧ t.reply = some .done := by
  by_cases hf : f (readCell s cell) = readCell s cell
  · cases (h.exec_of_fixed (exec_next ht).1 hf).symm.trans ht
    exact .inl rfl
  · obtain ⟨hcells, hevents, hrest⟩ := h.wroteCell ht
    have hcell : readCell t cell = f (readCell s cell) := by rw [hcells, if_pos rfl]
    rw [changeEvents, if_neg (Ne.symm hf)] at hevents
    exact .inr ⟨hcell ▸ hf, fun k hk => by rw [hcells, if_neg hk], hcell ▸ hevents, hrest⟩

end CellWrite

/-- Settles O39: SET as a `CellWrite`, and the bits of `pixelOn`. -/
theorem setTurnsOneSubPixelOn : Obligations.SetTurnsOneSubPixelOn := by
  unfold Obligations.SetTurnsOneSubPixelOn
  intro s x y hs hpixel
  obtain ⟨t, hexec, hwrote⟩ := (CellWrite.set hpixel).exists_wroteCell hs
  exact ⟨t, _, hexec, fun b hb => getLsbD_pixelOn _ _ hb, hwrote⟩

/-- Settles O40: RESET as a `CellWrite`, and the bits of `pixelOff`. -/
theorem resetTurnsOneSubPixelOff : Obligations.ResetTurnsOneSubPixelOff := by
  unfold Obligations.ResetTurnsOneSubPixelOff
  intro s x y hs hpixel
  obtain ⟨t, hexec, hwrote⟩ := (CellWrite.reset hpixel).exists_wroteCell hs
  exact ⟨t, _, hexec, fun b hb => getLsbD_pixelOff _ _ hb, hwrote⟩

/-- Settles O41: the two values of `pixelLit`, by bit 7. -/
theorem pointAnswersTheSubPixel : Obligations.PointAnswersTheSubPixel := by
  unfold Obligations.PointAnswersTheSubPixel
  intro s x y hs hpixel v
  have hexec : exec (.point x y) s = .next (s.withReply (.truth (v.getLsbD 7 && v.getLsbD (pixelBit x y)))) :=
    exec_point hs hpixel
  constructor
  · intro hglyph
    rw [hexec, hglyph, Bool.false_and]
    rfl
  · intro hgraphics
    rw [hexec, hgraphics, Bool.true_and, ← pixelBit_cast hpixel, Int.toNat_natCast]
    rfl

/-- Settles O44: the two cases of the window translation. -/
theorem peekReadsTheWindowOrZero : Obligations.PeekReadsTheWindowOrZero := by
  unfold Obligations.PeekReadsTheWindowOrZero
  intro s addr hs
  constructor
  · intro hlo hhi
    rw [exec_peek hs, memRead_of_some (translateAddr_inside hlo hhi)]
    rfl
  · intro hout
    rw [exec_peek hs, memRead_of_none (translateAddr_eq_none_iff.mpr hout)]
    rfl

/-- Settles O45: inside the window POKE is a `CellWrite`, outside it only answers. -/
theorem pokeWritesTheWindowOrNothing : Obligations.PokeWritesTheWindowOrNothing := by
  unfold Obligations.PokeWritesTheWindowOrNothing
  intro s addr v hs
  constructor
  · intro hlo hhi
    exact (CellWrite.poke v (translateAddr_inside hlo hhi)).exists_wroteCell hs
  · intro hout
    exact exec_poke_outside hs v (translateAddr_eq_none_iff.mpr hout)

/-! #### The window and the buffer are the same cells (R57) -/

theorem inBufRange_natCast {g : Geometry} {k : Nat} (hk : k < g.charsLen) : inBufRange g k := by omega

theorem exec_poke_window {s : State} (hs : s.Running) {k : Nat} (hk : k < s.geom.charsLen) (v : Byte) :
    exec (.poke (Config.videoBase + k) v) s = exec (.bufSet k v) s := by
  rw [exec_poke hs, memWrite_of_some v (translateAddr_window _ k hk), exec_bufSet hs v (inBufRange_natCast hk),
    Int.toNat_natCast]

theorem exec_bufGet_natCast {s : State} (hs : s.Running) {k : Nat} (hk : k < s.geom.charsLen) :
    exec (.bufGet k) s = .next (s.withReply (.code (readCell s k))) := exec_bufGet hs (inBufRange_natCast hk)

theorem exec_peek_window {s : State} (hs : s.Running) {k : Nat} (hk : k < s.geom.charsLen) :
    exec (.peek (Config.videoBase + k)) s = exec (.bufGet k) s := by
  rw [exec_peek hs, memRead_of_some (translateAddr_window _ k hk), exec_bufGet_natCast hs hk]

/-- Settles O48: both pairs read or update cell `k`, and after the write that cell holds the code. -/
theorem windowAndBufferAreTheSameCells : Obligations.WindowAndBufferAreTheSameCells := by
  unfold Obligations.WindowAndBufferAreTheSameCells
  intro s k v hs hk
  obtain ⟨t, hexec, hcells, -, -, ⟨hgeom, hfault, -⟩, -⟩ :=
    (CellWrite.poke v (translateAddr_window _ k hk)).exists_wroteCell hs
  have ht : t.Running := hfault.trans hs
  have hkt : k < t.geom.charsLen := hgeom ▸ hk
  have hget : exec (.bufGet k) t = .next (t.withReply (.code v)) := by
    rw [exec_bufGet_natCast ht hkt, hcells, if_pos rfl]
  exact ⟨exec_poke_window hs hk v, exec_peek_window hs hk, t, hexec, (exec_peek_window ht hkt).trans hget, hget⟩

/-! #### Reads are pure and writes idempotent (R49) -/

/-- A range-checked command that leaves no fault had its operand in range. -/
theorem in_range_of_unfaulted {p : Prop} [Decidable p] {u s t : State} {r : Reply} {x : OutOfRange}
    (h : (if p then complete r u else raiseOutOfRange x s) = .next t) (ht : t.fault = none) : p := by
  by_contra hp
  rw [if_neg hp, raiseOutOfRange_next] at h
  subst h
  cases ht

/-- An instruction that leaves no fault has run its effect and answered. -/
theorem exec_next_effectOf_of_unfaulted {i : Instr} {s t : State} (h : exec i s = .next t) (ht : t.fault = none) :
    ∃ r, t = (effectOf i s).withReply r := by
  obtain hran | ⟨x, rfl⟩ := exec_next_effectOf h
  · exact hran
  · cases ht

/-- `cell` is the cell that the operand of the writing command `i` names. -/
def NamesCell (g : Geometry) (i : Instr) (cell : Nat) : Prop :=
  (∃ a v, i = .poke a v ∧ translateAddr g a = some cell) ∨ (∃ p v, i = .bufSet p v ∧ cell = p.toNat) ∨
    (∃ x y, (i = .set x y ∨ i = .reset x y) ∧ cell = pixelCell g x y)

/-- A writing command that completes is a write of the cell it names. -/
theorem NamesCell.exists_cellWrite {i : Instr} {s t : State} {cell : Nat} (hi : NamesCell s.geom i cell)
    (h : exec i s = .next t) (ht : t.fault = none) : ∃ f, CellWrite s.geom i cell f := by
  obtain ⟨-, hbody⟩ := exec_next h
  obtain ⟨a, v, rfl, ha⟩ | ⟨p, v, rfl, rfl⟩ | ⟨x, y, rfl | rfl, rfl⟩ := hi
  · exact ⟨_, .poke v ha⟩
  · exact ⟨_, .bufSet v (in_range_of_unfaulted hbody ht)⟩
  · exact ⟨_, .set (in_range_of_unfaulted hbody ht)⟩
  · exact ⟨_, .reset (in_range_of_unfaulted hbody ht)⟩

/-- Settles O49: a read has no effect, and a write that completes is a `CellWrite`. -/
theorem readsArePureAndWritesIdempotent : Obligations.ReadsArePureAndWritesIdempotent := by
  unfold Obligations.ReadsArePureAndWritesIdempotent
  intro s hs
  refine ⟨?reads, ?own_code, ?writes, ?outside⟩
  case reads =>
    rintro i t h ht (⟨a, rfl⟩ | ⟨p, rfl⟩ | ⟨x, y, rfl⟩) <;> exact exec_next_effectOf_of_unfaulted h ht
  case own_code =>
    intro k v hk hv
    have hset := (CellWrite.bufSet v (inBufRange_natCast hk)).exec_of_fixed hs hv.symm
    exact ⟨hset, (exec_poke_window hs hk v).trans hset⟩
  case writes =>
    intro i t cell h ht hi
    obtain ⟨f, hwrite⟩ := NamesCell.exists_cellWrite hi h ht
    exact ⟨hwrite.exec_again h, hwrite.only_answers_or_changes h⟩
  case outside =>
    intro a v ha
    exact exec_poke_outside hs v ha

end Sys2Proof.Machine

/-! ### The stream codes, their decoder and the opcode rows (spec/30_encoding.md)

Two facts carry the encoding: the code of a well-formed stream action decodes to that action, and every code is the code
of a well-formed one. What the decoder answers for a code, and that decoding then encoding gives the code back, follow
from the two, so the cases of R64 are gone through once each way. -/

namespace Sys2Proof

/-! #### The decoder, by the three kinds of code (R64) -/

theorem isControlCode_iff {c : Byte} :
    isControlCode c = true ↔ c.toNat = 8 ∨ c.toNat = 10 ∨ c.toNat = 13 ∨ (24 ≤ c.toNat ∧ c.toNat ≤ 31) := by
  simp only [isControlCode, Bool.or_eq_true, Bool.and_eq_true, decide_eq_true_eq, or_assoc]
  bv_omega

theorem isTabCode_iff {c : Byte} : isTabCode c = true ↔ 191 ≤ c.toNat := by
  simp only [isTabCode, decide_eq_true_eq]
  bv_omega

theorem wellFormed_tabc_iff {t : Nat} : (Instr.tabc t).wellFormed = true ↔ t ≤ 64 := decide_eq_true_iff

theorem wellFormed_glyph_iff {c : Byte} :
    (Instr.glyph c).wellFormed = true ↔ ¬ isControlCode c = true ∧ ¬ isTabCode c = true := by
  simp only [Instr.wellFormed, Bool.and_eq_true, Bool.not_eq_true', Bool.not_eq_true]

theorem decodeCode_of_tab {c : Byte} (h : isTabCode c = true) : decodeCode c = .tabc (c.toNat - 191) := by
  rw [isTabCode_iff] at h
  have hne : ∀ d : Byte, d.toNat < 191 → c ≠ d := fun d hd hcd => by subst hcd; omega
  simp [decodeCode, hne, h, Config.tabBase]

theorem decodeCode_of_glyph {c : Byte} (h : (Instr.glyph c).wellFormed = true) : decodeCode c = .glyph c := by
  obtain ⟨hcontrol, htab⟩ := wellFormed_glyph_iff.mp h
  have hne : ∀ d : Byte, isControlCode d = true → c ≠ d := fun d hd hcd => hcontrol (hcd ▸ hd)
  rw [isTabCode_iff] at htab
  simp [decodeCode, hne, htab, isControlCode]

/-! #### Decode and encode -/

theorem toNat_encodeOp_tabc {t : Nat} (h : t ≤ 64) : (encodeOp (.tabc t)).toNat = 191 + t := by
  simp only [encodeOp, Config.tabBase, BitVec.toNat_ofNat]
  omega

/-- The code of a well-formed stream action decodes to it. -/
theorem decodeCode_encodeOp {op : StreamOp} (h : op.toInstr.wellFormed = true) : decodeCode (encodeOp op) = op := by
  cases op with
  | tabc t =>
    have htoNat := toNat_encodeOp_tabc (wellFormed_tabc_iff.mp h)
    rw [decodeCode_of_tab (isTabCode_iff.mpr (by omega)), htoNat, Nat.add_sub_cancel_left]
  | glyph c => exact decodeCode_of_glyph h
  | bs | lf | cr | left | right | down | up | home | sol | eol | eos => rfl

/-- Every control code is the code of an action without an operand. -/
theorem exists_encodeOp_of_control {c : Byte} (h : isControlCode c = true) :
    ∃ op : StreamOp, op.toInstr.wellFormed = true ∧ encodeOp op = c := by
  have hcode : c = 8#8 ∨ c = 10#8 ∨ c = 13#8 ∨ c = 24#8 ∨ c = 25#8 ∨ c = 26#8 ∨ c = 27#8 ∨ c = 28#8 ∨ c = 29#8 ∨
      c = 30#8 ∨ c = 31#8 := by
    rw [isControlCode_iff] at h
    bv_omega
  obtain rfl | rfl | rfl | rfl | rfl | rfl | rfl | rfl | rfl | rfl | rfl := hcode
  exacts [⟨.bs, rfl, rfl⟩, ⟨.lf, rfl, rfl⟩, ⟨.cr, rfl, rfl⟩, ⟨.left, rfl, rfl⟩, ⟨.right, rfl, rfl⟩, ⟨.down, rfl, rfl⟩,
    ⟨.up, rfl, rfl⟩, ⟨.home, rfl, rfl⟩, ⟨.sol, rfl, rfl⟩, ⟨.eol, rfl, rfl⟩, ⟨.eos, rfl, rfl⟩]

theorem exists_encodeOp_of_tab {c : Byte} (h : isTabCode c = true) :
    ∃ op : StreamOp, op.toInstr.wellFormed = true ∧ encodeOp op = c := by
  rw [isTabCode_iff] at h
  have hle : c.toNat - 191 ≤ 64 := by omega
  refine ⟨.tabc (c.toNat - 191), wellFormed_tabc_iff.mpr hle, BitVec.eq_of_toNat_eq ?_⟩
  rw [toNat_encodeOp_tabc hle]
  omega

/-- Every code is the code of a well-formed stream action. -/
theorem exists_encodeOp (c : Byte) : ∃ op : StreamOp, op.toInstr.wellFormed = true ∧ encodeOp op = c := by
  by_cases hcontrol : isControlCode c = true
  · exact exists_encodeOp_of_control hcontrol
  by_cases htab : isTabCode c = true
  · exact exists_encodeOp_of_tab htab
  · exact ⟨.glyph c, wellFormed_glyph_iff.mpr ⟨hcontrol, htab⟩, rfl⟩

theorem encodeOp_decodeCode (c : Byte) : encodeOp (decodeCode c) = c := by
  obtain ⟨op, hop, rfl⟩ := exists_encodeOp c
  rw [decodeCode_encodeOp hop]

theorem wellFormed_decodeCode (c : Byte) : (decodeCode c).toInstr.wellFormed = true := by
  obtain ⟨op, hop, rfl⟩ := exists_encodeOp c
  rwa [decodeCode_encodeOp hop]

theorem encode_toInstr (op : StreamOp) : encode op.toInstr = some (encodeOp op) := by cases op <;> rfl

theorem decode_cons (c : Byte) (rest : List Byte) : decode (c :: rest) = .ok ((decodeCode c).toInstr, rest) := rfl

/-- An instruction is a host command, which has no code, or the instruction of a stream action. -/
theorem command_without_code_or_toInstr (i : Instr) :
    (i.isCommand = true ∧ encode i = none) ∨ ∃ op : StreamOp, i = op.toInstr := by
  induction i using Machine.instr_cases_by_kind with
  | stream op => exact .inr ⟨op, rfl⟩
  | cls | print | printAt | tab | set | reset | point | peek | poke | bufGet | bufSet => exact .inl ⟨rfl, rfl⟩

theorem encode_eq_none_iff (i : Instr) : encode i = none ↔ i.isCommand = true := by
  obtain ⟨hcommand, hnone⟩ | ⟨op, rfl⟩ := command_without_code_or_toInstr i
  · exact iff_of_true hnone hcommand
  · simp [encode_toInstr, Machine.isCommand_toInstr]

theorem decode_of_encode {i : Instr} {b : Byte} (rest : List Byte) (hi : i.wellFormed = true)
    (hb : encode i = some b) : decode (b :: rest) = .ok (i, rest) := by
  obtain ⟨-, hnone⟩ | ⟨op, rfl⟩ := command_without_code_or_toInstr i
  · cases hnone.symm.trans hb
  · cases (encode_toInstr op).symm.trans hb
    rw [decode_cons, decodeCode_encodeOp hi]

/-- Settles O4: a code decodes to the action it encodes, every code is such a code, and the instructions that are no
action's are the host commands. -/
theorem decodeAndEncodeAgree : Obligations.DecodeAndEncodeAgree := by
  unfold Obligations.DecodeAndEncodeAgree
  refine ⟨?instruction_back, ?code_back, encode_eq_none_iff⟩
  case instruction_back => exact fun i b rest hi hb => decode_of_encode rest hi hb
  case code_back =>
    intro b rest
    have hcode : encode (decodeCode b).toInstr = some b := by rw [encode_toInstr, encodeOp_decodeCode]
    exact ⟨(decodeCode b).toInstr, decode_cons b rest, wellFormed_decodeCode b, hcode⟩

/-! #### The decode table (R64, R65, R66) -/

/-- Settles O1: each code is written out as `encodeOp` has it, and decodes by `decodeCode_encodeOp`. -/
theorem writtenCodesDecode : Obligations.WrittenCodesDecode := by
  unfold Obligations.WrittenCodesDecode
  have written : ∀ (op : StreamOp) (rest : List Byte), op.toInstr.wellFormed = true →
      decode (encodeOp op :: rest) = .ok (op.toInstr, rest) :=
    fun op rest h => decode_of_encode rest h (encode_toInstr op)
  exact ⟨written .bs _ rfl, written .lf _ rfl, written .cr _ rfl, written .up _ rfl, written .eos _ rfl,
    written (.glyph 190#8) _ rfl, written (.tabc 0) _ rfl, written (.tabc 1) _ rfl, written (.tabc 64) _ rfl⟩

/-- No code that the table lists for GLYPH is a control code or a TABC code. -/
theorem wellFormed_glyph_of_listed {c : Byte} (h : c.toNat ≤ 7 ∨ c.toNat = 9 ∨ c.toNat = 11 ∨ c.toNat = 12 ∨
    (14 ≤ c.toNat ∧ c.toNat ≤ 23) ∨ (32 ≤ c.toNat ∧ c.toNat ≤ 190)) : (Instr.glyph c).wellFormed = true := by
  rw [wellFormed_glyph_iff, isControlCode_iff, isTabCode_iff]
  omega

/-- Settles O2: a single code is that of its action, and the two ranges are the TABC and the GLYPH codes. -/
theorem everyCodeDecodesAsTheTableSays : Obligations.EveryCodeDecodesAsTheTableSays := by
  unfold Obligations.EveryCodeDecodesAsTheTableSays
  intro c
  have single : ∀ op : StreamOp, op.toInstr.wellFormed = true → c = encodeOp op → decodeCode c = op :=
    fun op hop hc => hc ▸ decodeCode_encodeOp hop
  exact ⟨single .bs rfl, single .lf rfl, single .cr rfl, single .left rfl, single .right rfl, single .down rfl,
    single .up rfl, single .home rfl, single .sol rfl, single .eol rfl, single .eos rfl,
    fun htab => decodeCode_of_tab (isTabCode_iff.mpr htab),
    fun hglyph => decodeCode_of_glyph (wellFormed_glyph_of_listed hglyph)⟩

/-! #### The rows of the opcode table

A row fixes the top bits of a code and leaves the low ones free, so it covers an interval. Any two rows differ in a bit
that both fix, so no code is of two rows; that each code is of one is shown action by action. -/

namespace CodeRow

/-- The row fixes all but the low `k` bits of a code. The mask's value is written out for the arithmetic. -/
abbrev FixesAllBut (r : CodeRow) (k : Nat) : Prop :=
  r.mask = BitVec.allOnes 8 <<< k ∧ r.mask.toNat + 2 ^ k = 256 ∧ 2 ^ k ∣ r.pattern.toNat

/-- The rows differ in a bit that both fix. -/
abbrev Apart (r r' : CodeRow) : Prop := r.pattern &&& r'.mask ≠ r'.pattern &&& r.mask

theorem covers_iff_and {r : CodeRow} {c : Byte} : r.covers c = true ↔ c &&& r.mask = r.pattern := decide_eq_true_iff

theorem Apart.not_covers {r r' : CodeRow} (h : r.Apart r') {c : Byte} (hr : r.covers c = true) :
    ¬ r'.covers c = true := by
  rw [covers_iff_and] at *
  intro hr'
  refine h ?_
  rw [← hr, ← hr', BitVec.and_assoc, BitVec.and_assoc, BitVec.and_comm r.mask]

theorem FixesAllBut.covers_iff {r : CodeRow} {k : Nat} (h : r.FixesAllBut k) (c : Byte) :
    r.covers c = true ↔ r.pattern.toNat ≤ c.toNat ∧ c.toNat + r.mask.toNat < r.pattern.toNat + 256 := by
  obtain ⟨hmask, hsize, q, hq⟩ := h
  have hpos : 0 < 2 ^ k := Nat.two_pow_pos k
  have hfloor : (c &&& r.mask).toNat = 2 ^ k * (c.toNat / 2 ^ k) := by
    have hle : c.toNat / 2 ^ k * 2 ^ k < 2 ^ 8 := (Nat.div_mul_le_self _ _).trans_lt c.isLt
    rw [hmask, ← BitVec.shiftLeft_ushiftRight, BitVec.toNat_shiftLeft, BitVec.toNat_ushiftRight,
      Nat.shiftRight_eq_div_pow, Nat.shiftLeft_eq, Nat.mod_eq_of_lt hle, Nat.mul_comm]
  rw [covers_iff_and, ← BitVec.toNat_inj, hfloor, hq, Nat.mul_right_inj hpos.ne', Nat.div_eq_iff hpos, Nat.mul_comm q]
  omega

/-- Among rows that are pairwise apart, a row that covers a code is the only one. -/
theorem filter_covers_eq_singleton {rows : List CodeRow} (hrows : rows.Pairwise Apart) {r : CodeRow} (hr : r ∈ rows)
    {c : Byte} (hc : r.covers c = true) : (rows.filter fun r => r.covers c) = [r] := by
  obtain ⟨before, after, rfl⟩ := List.append_of_mem hr
  obtain ⟨-, hafter, hbefore⟩ := List.pairwise_append.mp hrows
  refine List.filter_eq_cons_iff.mpr ⟨before, after, rfl, ?before, hc, List.filter_eq_nil_iff.mpr ?after⟩
  case before => exact fun r' hr' h => (hbefore r' hr' r List.mem_cons_self).not_covers h hc
  case after => exact fun r' hr' => (List.rel_of_pairwise_cons hafter hr').not_covers hc

end CodeRow

theorem codeRows_apart : codeRows.Pairwise CodeRow.Apart := by decide

/-- TABC's first row is column 0 alone; its second has the column less 1 in the code's low six bits (R65). -/
theorem exists_tabCodeRow {t : Nat} (h : t ≤ 64) :
    ∃ r ∈ tabCodeRows, r.covers (encodeOp (.tabc t)) = true ∧ r.op (encodeOp (.tabc t)) = .tabc t := by
  cases t with
  | zero => decide
  | succ t =>
    have hcode : (encodeOp (.tabc (t + 1))).toNat = 192 + t := (toNat_encodeOp_tabc h).trans (by omega)
    have hfixes : CodeRow.FixesAllBut ⟨192#8, 192#8, fun c => .tabc ((c.extractLsb 5 0).toNat + 1)⟩ 6 := by decide
    have hlow : ((encodeOp (.tabc (t + 1))).extractLsb 5 0).toNat = t := by
      rw [BitVec.extractLsb_toNat, hcode]
      omega
    refine ⟨_, List.mem_cons_of_mem _ List.mem_cons_self, (hfixes.covers_iff _).mpr ?_, ?_⟩
    · bv_omega
    · exact congrArg (fun n => StreamOp.tabc (n + 1)) hlow

theorem glyphCodeRows_fixesAllBut : ∀ r ∈ glyphCodeRows, ∃ k < 8, r.FixesAllBut k := by decide

theorem exists_glyphCodeRow {c : Byte} (h : (Instr.glyph c).wellFormed = true) :
    ∃ r ∈ glyphCodeRows, r.covers c = true := by
  have hinterval : ∃ r ∈ glyphCodeRows,
      r.pattern.toNat ≤ c.toNat ∧ c.toNat + r.mask.toNat < r.pattern.toNat + 256 := by
    rw [wellFormed_glyph_iff, isControlCode_iff, isTabCode_iff] at h
    simp only [glyphCodeRows, List.mem_cons, List.not_mem_nil, or_false, exists_eq_or_imp, exists_eq_left]
    bv_omega
  obtain ⟨r, hr, hc⟩ := hinterval
  obtain ⟨k, -, hk⟩ := glyphCodeRows_fixesAllBut r hr
  exact ⟨r, hr, (hk.covers_iff c).mpr hc⟩

theorem op_of_mem_glyphCodeRows : ∀ r ∈ glyphCodeRows, r.op = .glyph := by
  simp [glyphCodeRows]

/-- Every code is of a row that gives what the code encodes. -/
theorem exists_codeRow {op : StreamOp} (h : op.toInstr.wellFormed = true) :
    ∃ r ∈ codeRows, r.covers (encodeOp op) = true ∧ r.op (encodeOp op) = op := by
  cases op with
  | bs | lf | cr | left | right | down | up | home | sol | eol | eos => decide
  | glyph c =>
    obtain ⟨r, hr, hc⟩ := exists_glyphCodeRow h
    exact ⟨r, List.mem_append_right _ hr, hc, congrFun (op_of_mem_glyphCodeRows r hr) c⟩
  | tabc t =>
    obtain ⟨r, hr, hcovers, hrow⟩ := exists_tabCodeRow (wellFormed_tabc_iff.mp h)
    exact ⟨r, List.mem_append_left _ (List.mem_append_right _ hr), hcovers, hrow⟩

/-- Settles O3: the row that covers a code is the only one, because the rows are apart. -/
theorem opcodeRowsPartitionTheCodes : Obligations.OpcodeRowsPartitionTheCodes := by
  unfold Obligations.OpcodeRowsPartitionTheCodes
  intro c
  obtain ⟨op, hop, rfl⟩ := exists_encodeOp c
  obtain ⟨r, hr, hcovers, hrow⟩ := exists_codeRow hop
  rw [CodeRow.filter_covers_eq_singleton codeRows_apart hr hcovers, decodeCode_encodeOp hop]
  exact congrArg (fun o => [o]) hrow

end Sys2Proof

/-! ### TABC and the code that TAB answers (spec/41_cursor_fsm.md R92, R106) -/

namespace Sys2Proof.Machine

/-- TABC in a running block, both branches of its guard at once. -/
theorem exec_tabc {s : State} (hs : s.Running) (t : Nat) :
    exec (.tabc t) s = .next { s with
      cursor := if t < s.geom.lineWidth ∧ s.cursor % s.geom.lineWidth < t
        then s.cursor / s.geom.lineWidth * s.geom.lineWidth + t else s.cursor
      reply := some .done } := by
  have hcursor : streamTabc t s = s.withCursor (if t < s.geom.lineWidth ∧ colOf s.geom s.cursor < t
      then rowStart s.geom (rowOf s.geom s.cursor) + t else s.cursor) := by
    rw [apply_ite s.withCursor]
    rfl
  rw [exec_running _ hs]
  exact congrArg (complete .done) hcursor

/-- Settles O25: the two branches of the guard. -/
theorem tabCodeOnlyMovesForwardInTheRow : Obligations.TabCodeOnlyMovesForwardInTheRow := by
  unfold Obligations.TabCodeOnlyMovesForwardInTheRow
  refine fun s t hs => ⟨fun hrow hright => ?forward, fun hstay => ?stays⟩
  case forward => rw [exec_tabc hs, if_pos ⟨hrow, hright⟩]
  case stays => rw [exec_tabc hs, if_neg (by omega)]

/-- PRINT of one code runs the instruction the code decodes to (R90, R93). -/
theorem exec_print_singleton (c : Byte) (s : State) : exec (.print [c]) s = exec (decodeCode c).toInstr s := by
  rw [exec_toInstr]
  rfl

/-- The code TAB answers decodes to TABC of the same column (spec/30_encoding.md R73). -/
theorem decodeCode_tabCode {n : Nat} (h : n ≤ 64) : decodeCode (tabCode n) = .tabc n :=
  decodeCode_encodeOp (op := .tabc n) (wellFormed_tabc_iff.mpr h)

/-- A code that TAB answered is the tab code of its argument. -/
theorem exec_tab_reply {s t : State} {n : Int} {c : Byte} (h : exec (.tab n) s = .next t)
    (hc : t.reply = some (.code c)) : c = tabCode n := by
  obtain ⟨-, hbody⟩ := exec_next h
  simp only [acceptedBody] at hbody
  split at hbody
  · cases hbody
    cases hc
    rfl
  · cases hbody
    cases hc

/-- Settles O32: the code TAB answers is TABC's, so printing it is `exec_tabc`. -/
theorem printingATabCodeTabs : Obligations.PrintingATabCodeTabs := by
  unfold Obligations.PrintingATabCodeTabs
  intro s t n c hs hn htab hreply
  obtain rfl := exec_tab_reply htab hreply
  calc exec (.print [tabCode n]) s
      = exec (decodeCode (tabCode n)).toInstr s := exec_print_singleton _ s
    _ = exec (.tabc n) s := by rw [decodeCode_tabCode (by omega)]; rfl
    _ = _ := exec_tabc hs n

end Sys2Proof.Machine

/-! ### The character buffer (spec/40_character_buffer.md): BUF_GET, BUF_SET and the codes that blank a range

BUF_SET is one `Update` (R80), EOL and EOS each are one `BlankRange` (R83), and LF and CR are a `BlankRange` that a
cursor move or a `Scroll` follows (spec/41_cursor_fsm.md R95). -/

namespace Sys2Proof.Machine

/-- Settles O46: a position in the buffer passes the range check, and the answer is the cell. -/
theorem bufGetAnswersTheCell : Obligations.BufGetAnswersTheCell := by
  unfold Obligations.BufGetAnswersTheCell
  exact fun s pos hs hlo hhi => exec_bufGet hs ⟨hlo, hhi⟩

/-- Settles O47: BUF_SET is a `CellWrite` of the position it names. -/
theorem bufSetWritesTheCell : Obligations.BufSetWritesTheCell := by
  unfold Obligations.BufSetWritesTheCell
  exact fun s pos v hs hlo hhi => (CellWrite.bufSet v ⟨hlo, hhi⟩).exists_wroteCell hs

/-! #### A stream action in a running block -/

theorem exec_toInstr_running (op : StreamOp) {s : State} (hs : s.Running) :
    exec op.toInstr s = .next ((streamAction op s).withReply .done) := by
  rw [exec_running _ hs, acceptedBody_toInstr, complete]

theorem streamAction_withReply_keepsControl (op : StreamOp) (s : State) (r : Reply) :
    s.KeepsControl ((streamAction op s).withReply r) :=
  ⟨streamAction_geom op s, streamAction_fault op s, streamAction_pending op s⟩

/-! #### EOL and EOS -/

/-- A stream action that blanks from the cursor to `b` does nothing else (spec/40_character_buffer.md R83). -/
theorem exec_toInstr_of_blankRange {op : StreamOp} {s : State} {b : Nat} (hs : s.Running)
    (hop : streamAction op s = blankRange s.cursor b s) :
    ∃ t, exec op.toInstr s = .next t ∧ t.cursor = s.cursor ∧ s.KeepsControl t ∧ t.reply = some .done ∧
      (∀ k, readCell t k = if s.cursor ≤ k ∧ k < b then Config.blank else readCell s k) ∧
      t.events = s.events ++ blankEvents s s.cursor (b - s.cursor) := by
  have hcontrol := streamAction_withReply_keepsControl op s .done
  refine ⟨_, exec_toInstr_running op hs, ?_⟩
  rw [hop] at hcontrol ⊢
  exact ⟨blankRange_cursor .., hcontrol, rfl, readCell_blankRange s.cursor b s, blankRange_events ..⟩

/-- Settles O24: EOL and EOS each are one `BlankRange` from the cursor. -/
theorem eraseCodesBlankToTheirEnd : Obligations.EraseCodesBlankToTheirEnd := by
  unfold Obligations.EraseCodesBlankToTheirEnd
  exact fun s hs => ⟨exec_toInstr_of_blankRange (op := .eol) hs rfl, exec_toInstr_of_blankRange (op := .eos) hs rfl⟩

/-! #### LF and CR -/

/-- The last row ends where the buffer ends. -/
theorem rowStart_succ_of_last {g : Geometry} {r : Nat} (hg : g.Valid) (hr : r = g.lineCount - 1) :
    rowStart g (r + 1) = g.charsLen := by
  rw [hr, Nat.sub_add_cancel hg.2, rowStart, Geometry.charsLen, Nat.mul_comm]

theorem newLine_of_not_last {s : State} (hr : rowOf s.geom s.cursor < s.geom.lineCount - 1) :
    newLine s = (blankRange s.cursor (rowStart s.geom (rowOf s.geom s.cursor + 1)) s).withCursor
      (rowStart s.geom (rowOf s.geom s.cursor + 1)) := if_pos hr

theorem newLine_of_last {s : State} (hg : s.geom.Valid) (hr : rowOf s.geom s.cursor = s.geom.lineCount - 1) :
    newLine s = (scroll (blankRange s.cursor s.geom.charsLen s)).withCursor (lastRowStart s.geom) := by
  rw [← rowStart_succ_of_last hg hr]
  exact if_neg (Nat.not_lt.mpr hr.ge)

/-- Blanking up to the end of the buffer and scrolling leaves only the cells that stood before `a`, a row further up. -/
theorem readCell_scroll_blankRange_charsLen (a : Nat) (s : State) (k : Nat) :
    readCell (scroll (blankRange a s.geom.charsLen s)) k =
      if k + s.geom.lineWidth < s.geom.charsLen ∧ k + s.geom.lineWidth < a
      then readCell s (k + s.geom.lineWidth) else Config.blank := by
  rw [readCell_scroll, blankRange_geom, readCell_blankRange]
  by_cases hin : k + s.geom.lineWidth < s.geom.charsLen
  · by_cases ha : k + s.geom.lineWidth < a
    · rw [if_pos hin, if_neg (by omega), if_pos ⟨hin, ha⟩]
    · rw [if_pos hin, if_pos (by omega), if_neg (by omega)]
  · rw [if_neg hin, if_neg (by omega)]

/-- LF and CR are the one action `NewLine` (spec/41_cursor_fsm.md R96, R97). -/
theorem exec_newLine {i : Instr} {s : State} (hi : i = .lf ∨ i = .cr) (hs : s.Running) :
    exec i s = .next ((newLine s).withReply .done) := by
  obtain rfl | rfl := hi
  · exact exec_toInstr_running .lf hs
  · exact exec_toInstr_running .cr hs

/-- Settles O17: the two branches of `NewLine`; on the last row the range blanked reaches the buffer's end. -/
theorem newLineCodesBlankAndAdvance : Obligations.NewLineCodesBlankAndAdvance := by
  unfold Obligations.NewLineCodesBlankAndAdvance
  intro i s hi hs hg _ g r rowEnd
  refine ⟨_, exec_newLine hi hs, ⟨newLine_geom s, newLine_fault s, newLine_pending s⟩, rfl,
    fun hr => ?notLast, fun hr => ?last⟩
  case notLast =>
    rw [newLine_of_not_last hr]
    exact ⟨rfl, readCell_blankRange s.cursor rowEnd s, blankRange_events ..⟩
  case last =>
    have hend : rowEnd = s.geom.charsLen := rowStart_succ_of_last hg hr
    rw [newLine_of_last hg hr, hend]
    exact ⟨rfl, readCell_scroll_blankRange_charsLen s.cursor s,
      congrArg (· ++ [Event.scroll]) (blankRange_events s.cursor s.geom.charsLen s)⟩

end Sys2Proof.Machine

/-! ### The cursor state machine (spec/41_cursor_fsm.md)

The moves that write no cell come first, read at a row and a column: LEFT and RIGHT step the column, DOWN and UP the
row. BS and GLYPH each are one `Update` and a move. The printing commands run the actions in order, and a stream of GLYPH
codes that does not pass the end of the buffer is `writeFrom`, the codes written one after another. -/

namespace Sys2Proof.Machine

/-! #### The remainders on integers (spec/00_scope.md R9, R11) -/

theorem succMod_cast (a n : Nat) : (succMod a n : Int) = ((a : Int) + 1) % (n : Int) := by
  rw [succMod, Int.natCast_emod, Int.natCast_succ]

theorem rowOf_cast (g : Geometry) (c : Nat) : (rowOf g c : Int) = (c : Int) / (g.lineWidth : Int) := Int.natCast_ediv ..

theorem colOf_cast (g : Geometry) (c : Nat) : (colOf g c : Int) = (c : Int) % (g.lineWidth : Int) := Int.natCast_emod ..

theorem rowStart_add_cast (g : Geometry) (r c : Nat) :
    ((rowStart g r + c : Nat) : Int) = (r : Int) * (g.lineWidth : Int) + (c : Int) := by
  rw [rowStart, Int.natCast_add, Int.natCast_mul]

theorem predMod_succMod {a n : Nat} (h : a < n) : predMod (succMod a n) n = a := by
  rw [predMod, succMod, Nat.mod_add_mod, show a + 1 + (n - 1) = a + n by omega, Nat.add_mod_right, Nat.mod_eq_of_lt h]

theorem succMod_predMod {a n : Nat} (h : a < n) : succMod (predMod a n) n = a := by
  rw [predMod, succMod, Nat.mod_add_mod, show a + (n - 1) + 1 = a + n by omega, Nat.add_mod_right, Nat.mod_eq_of_lt h]

/-! #### The moves that write no cell -/

/-- A stream action that only moves the cursor changes nothing else but the reply. -/
theorem exec_toInstr_of_withCursor {op : StreamOp} {s : State} {c : Nat} (hs : s.Running)
    (hop : streamAction op s = s.withCursor c) :
    exec op.toInstr s = .next { s with cursor := c, reply := some .done } := by
  rw [exec_toInstr_running op hs, hop]
  rfl

/-- Settles O22: HOME only moves the cursor. -/
theorem homeGoesToCellZero : Obligations.HomeGoesToCellZero := by
  unfold Obligations.HomeGoesToCellZero
  exact ⟨decode_of_encode (i := .home) [] rfl rfl, fun s hs => exec_toInstr_of_withCursor (op := .home) hs rfl⟩

/-- Settles O23: SOL only moves the cursor. -/
theorem solGoesToTheRowStart : Obligations.SolGoesToTheRowStart := by
  unfold Obligations.SolGoesToTheRowStart
  exact ⟨decode_of_encode (i := .sol) [] rfl rfl, fun s hs => exec_toInstr_of_withCursor (op := .sol) hs rfl⟩

/-- Settles O18: the new column is `predMod` of the old one. -/
theorem leftWrapsWithinTheRow : Obligations.LeftWrapsWithinTheRow := by
  unfold Obligations.LeftWrapsWithinTheRow
  refine ⟨decode_of_encode (i := .left) [] rfl rfl, fun s hs hg => ?_⟩
  refine ⟨_, exec_toInstr_of_withCursor (op := .left) hs rfl, ?_⟩
  rw [rowStart_add_cast, rowOf_cast, predMod_cast _ _ hg.1, colOf_cast]

/-- Settles O19: the new column is `succMod` of the old one. -/
theorem rightWrapsWithinTheRow : Obligations.RightWrapsWithinTheRow := by
  unfold Obligations.RightWrapsWithinTheRow
  refine ⟨decode_of_encode (i := .right) [] rfl rfl, fun s hs _ => ?_⟩
  refine ⟨_, exec_toInstr_of_withCursor (op := .right) hs rfl, ?_⟩
  rw [rowStart_add_cast, rowOf_cast, succMod_cast, colOf_cast]

/-- Settles O20: the new row is `succMod` of the old one. -/
theorem downWrapsWithinTheColumn : Obligations.DownWrapsWithinTheColumn := by
  unfold Obligations.DownWrapsWithinTheColumn
  refine ⟨decode_of_encode (i := .down) [] rfl rfl, fun s hs _ => ?_⟩
  refine ⟨_, exec_toInstr_of_withCursor (op := .down) hs rfl, ?_⟩
  rw [rowStart_add_cast, succMod_cast, rowOf_cast, colOf_cast]

/-- Settles O21: the new row is `predMod` of the old one. -/
theorem upWrapsWithinTheColumn : Obligations.UpWrapsWithinTheColumn := by
  unfold Obligations.UpWrapsWithinTheColumn
  refine ⟨decode_of_encode (i := .up) [] rfl rfl, fun s hs hg => ?_⟩
  refine ⟨_, exec_toInstr_of_withCursor (op := .up) hs rfl, ?_⟩
  rw [rowStart_add_cast, predMod_cast _ _ hg.2, rowOf_cast, colOf_cast]

/-! #### Opposite moves (R109) -/

/-- `s` with the cursor at row `r` and column `c`. -/
def State.atRowCol (s : State) (r c : Nat) : State := s.withCursor (rowStart s.geom r + c)

/-- A state is itself with the cursor at its own row and column. -/
theorem State.atRowCol_self (s : State) : s.atRowCol (rowOf s.geom s.cursor) (colOf s.geom s.cursor) = s :=
  congrArg s.withCursor (rowStart_add_colOf s.geom s.cursor)

section AtRowCol

variable {s : State} (r : Nat) {c : Nat} (hc : c < s.geom.lineWidth)
include hc

theorem rowOf_atRowCol : rowOf s.geom (s.atRowCol r c).cursor = r := rowOf_rowStart_add r hc

theorem colOf_atRowCol : colOf s.geom (s.atRowCol r c).cursor = c := colOf_rowStart_add r hc

theorem streamLeft_atRowCol : streamLeft (s.atRowCol r c) = s.atRowCol r (predMod c s.geom.lineWidth) :=
  congrArg₂ (fun r c => s.atRowCol r (predMod c s.geom.lineWidth)) (rowOf_atRowCol r hc) (colOf_atRowCol r hc)

theorem streamRight_atRowCol : streamRight (s.atRowCol r c) = s.atRowCol r (succMod c s.geom.lineWidth) :=
  congrArg₂ (fun r c => s.atRowCol r (succMod c s.geom.lineWidth)) (rowOf_atRowCol r hc) (colOf_atRowCol r hc)

theorem streamDown_atRowCol : streamDown (s.atRowCol r c) = s.atRowCol (succMod r s.geom.lineCount) c :=
  congrArg₂ (fun r c => s.atRowCol (succMod r s.geom.lineCount) c) (rowOf_atRowCol r hc) (colOf_atRowCol r hc)

theorem streamUp_atRowCol : streamUp (s.atRowCol r c) = s.atRowCol (predMod r s.geom.lineCount) c :=
  congrArg₂ (fun r c => s.atRowCol (predMod r s.geom.lineCount) c) (rowOf_atRowCol r hc) (colOf_atRowCol r hc)

end AtRowCol

section Opposites

variable {s : State} (hg : s.geom.Valid)
include hg

theorem streamRight_streamLeft : streamRight (streamLeft s) = s := by
  have hcol := colOf_lt s.cursor hg
  calc streamRight (streamLeft s)
      = streamRight (s.atRowCol (rowOf s.geom s.cursor) (predMod (colOf s.geom s.cursor) s.geom.lineWidth)) := rfl
    _ = s := by rw [streamRight_atRowCol _ (predMod_lt _ _ hg.1), succMod_predMod hcol, State.atRowCol_self]

theorem streamLeft_streamRight : streamLeft (streamRight s) = s := by
  have hcol := colOf_lt s.cursor hg
  calc streamLeft (streamRight s)
      = streamLeft (s.atRowCol (rowOf s.geom s.cursor) (succMod (colOf s.geom s.cursor) s.geom.lineWidth)) := rfl
    _ = s := by rw [streamLeft_atRowCol _ (succMod_lt _ _ hg.1), predMod_succMod hcol, State.atRowCol_self]

variable (hc : s.cursor < s.geom.charsLen)
include hc

theorem streamUp_streamDown : streamUp (streamDown s) = s := by
  have hcol := colOf_lt s.cursor hg
  calc streamUp (streamDown s)
      = streamUp (s.atRowCol (succMod (rowOf s.geom s.cursor) s.geom.lineCount) (colOf s.geom s.cursor)) := rfl
    _ = s := by rw [streamUp_atRowCol _ hcol, predMod_succMod (rowOf_lt hc), State.atRowCol_self]

theorem streamDown_streamUp : streamDown (streamUp s) = s := by
  have hcol := colOf_lt s.cursor hg
  calc streamDown (streamUp s)
      = streamDown (s.atRowCol (predMod (rowOf s.geom s.cursor) s.geom.lineCount) (colOf s.geom s.cursor)) := rfl
    _ = s := by rw [streamDown_atRowCol _ hcol, succMod_predMod (rowOf_lt hc), State.atRowCol_self]

end Opposites

/-- An action that another undoes gives the state back but for the reply. -/
theorem exec_toInstr_undone {op back : StreamOp} {s : State} (hs : s.Running)
    (hback : streamAction back (streamAction op s) = s) :
    ∃ t, exec op.toInstr s = .next t ∧ exec back.toInstr t = .next { s with reply := some .done } := by
  have hrunning : ((streamAction op s).withReply .done).Running := (streamAction_fault op s).trans hs
  refine ⟨_, exec_toInstr_running op hs, ?_⟩
  rw [exec_toInstr_running back hrunning, streamAction_withReply, hback]
  rfl

/-- Settles O27: the second move of each of the four pairs undoes the first. -/
theorem oppositeMovesCancel : Obligations.OppositeMovesCancel := by
  unfold Obligations.OppositeMovesCancel
  intro s hs hg hc a b hab
  simp only [List.mem_cons, Prod.mk.injEq, List.not_mem_nil, or_false] at hab
  obtain ⟨rfl, rfl⟩ | ⟨rfl, rfl⟩ | ⟨rfl, rfl⟩ | ⟨rfl, rfl⟩ := hab
  · exact exec_toInstr_undone (op := .down) (back := .up) hs (streamUp_streamDown hg hc)
  · exact exec_toInstr_undone (op := .up) (back := .down) hs (streamDown_streamUp hg hc)
  · exact exec_toInstr_undone (op := .left) (back := .right) hs (streamRight_streamLeft hg)
  · exact exec_toInstr_undone (op := .right) (back := .left) hs (streamLeft_streamRight hg)

/-! #### BS and GLYPH (R94, R107) -/

/-- Settles O16: BS is an `Update` of the cell that `predMod` gives, with the cursor moved there. -/
theorem backspaceBlanksTheCellBefore : Obligations.BackspaceBlanksTheCellBefore := by
  unfold Obligations.BackspaceBlanksTheCellBefore
  intro s hs hg
  have hcursor : (streamBs s).cursor = predMod s.cursor s.geom.charsLen := update_cursor ..
  refine ⟨_, exec_toInstr_running .bs hs, ?cursor, ?cells, ?sent, streamAction_withReply_keepsControl .bs s .done, rfl⟩
  all_goals simp only [streamAction, State.withReply_cursor, State.withReply_events, readCell_withReply, hcursor]
  case cursor => exact predMod_cast _ _ (charsLen_pos hg)
  case cells => exact readCell_update _ _ (s.withCursor _)
  case sent => exact update_events _ _ (s.withCursor _)

theorem streamGlyph_of_not_last {s : State} (c : Byte) (h : s.cursor + 1 < s.geom.charsLen) :
    streamGlyph c s = (update s.cursor c s).withCursor (s.cursor + 1) := if_neg h.ne

theorem streamGlyph_of_last {s : State} (c : Byte) (h : s.cursor + 1 = s.geom.charsLen) :
    streamGlyph c s = (scroll (update s.cursor c s)).withCursor (lastRowStart s.geom) := if_pos h

/-- Settles O26: the two branches of GLYPH; in the last cell the `Scroll` moves what was written. -/
theorem glyphWritesAndAdvances : Obligations.GlyphWritesAndAdvances := by
  unfold Obligations.GlyphWritesAndAdvances
  intro s c hs _ _ g
  refine ⟨_, exec_toInstr_running (.glyph c) hs, streamAction_withReply_keepsControl (.glyph c) s .done, rfl,
    fun h => ?notLast, fun h => ?last⟩
  case notLast =>
    rw [streamAction, streamGlyph_of_not_last c h]
    exact ⟨rfl, readCell_update s.cursor c s, update_events s.cursor c s⟩
  case last =>
    rw [streamAction, streamGlyph_of_last c h]
    refine ⟨rfl, fun k => ?_, congrArg (· ++ [Event.scroll]) (update_events s.cursor c s)⟩
    rw [readCell_withReply, readCell_withCursor, readCell_scroll, update_geom, readCell_update]
    rfl

/-! #### PRINT, PRINT_AT and TAB in a running block (R90, R91, R92) -/

section Running

variable {s : State} (hs : s.Running)
include hs

theorem exec_print (codes : List Byte) : exec (.print codes) s = .next ((printStream codes s).withReply .done) :=
  exec_running (.print codes) hs

theorem exec_printAt {pos : Int} (codes : List Byte) (h : inBufRange s.geom pos) :
    exec (.printAt pos codes) s = .next ((printStream codes (s.withCursor pos.toNat)).withReply .done) :=
  (exec_running (.printAt pos codes) hs).trans (if_pos h)

theorem exec_printAt_outside {pos : Int} (codes : List Byte) (h : ¬ inBufRange s.geom pos) :
    exec (.printAt pos codes) s = .next ((s.withFault (.printAt pos)).withReply (.outOfRange (.printAt pos))) :=
  (exec_running (.printAt pos codes) hs).trans (if_neg h)

theorem exec_tab {n : Int} (h : inTabRange n) : exec (.tab n) s = .next (s.withReply (.code (tabCode n))) :=
  (exec_running (.tab n) hs).trans (if_pos h)

end Running

/-- The code TAB answers does not wrap in its 8 bits. -/
theorem toNat_tabCode {n : Int} (h : inTabRange n) : ((tabCode n).toNat : Int) = 191 + n := by
  obtain ⟨hlo, hhi⟩ := h
  unfold Config.tabArgLimit at hhi
  rw [tabCode, BitVec.toNat_ofNat, Config.tabBase]
  omega

/-- Settles O31: an argument below 64 passes the range check, and its code fits. -/
theorem tabAnswersItsCode : Obligations.TabAnswersItsCode := by
  unfold Obligations.TabAnswersItsCode
  intro s n hs hlo hhi
  exact ⟨tabCode n, toNat_tabCode ⟨hlo, hhi⟩, exec_tab hs ⟨hlo, hhi⟩⟩

/-- Settles O30: PRINT_AT moves the cursor and is then PRINT. -/
theorem printAtPrintsFromItsPosition : Obligations.PrintAtPrintsFromItsPosition := by
  unfold Obligations.PrintAtPrintsFromItsPosition
  intro s pos codes hs hlo hhi
  exact ⟨_, exec_printAt hs codes ⟨hlo, hhi⟩, exec_print (s := s.withCursor pos.toNat) hs codes⟩

/-- Settles O28: the reply the first instruction leaves does not matter to the rest of the stream. -/
theorem printRunsItsCodesInOrder : Obligations.PrintRunsItsCodesInOrder := by
  unfold Obligations.PrintRunsItsCodesInOrder
  intro s hs
  refine ⟨exec_print hs [], fun c rest => ⟨_, exec_toInstr_running (decodeCode c) hs, ?_⟩⟩
  have hrunning : ((streamStep c s).withReply .done).Running := (streamAction_fault (decodeCode c) s).trans hs
  calc exec (.print (c :: rest)) s
      = .next ((printStream rest (streamStep c s)).withReply .done) := exec_print hs (c :: rest)
    _ = .next ((printStream rest ((streamStep c s).withReply .done)).withReply .done) := by
        rw [printStream_withReply]; rfl
    _ = exec (.print rest) ((streamStep c s).withReply .done) := (exec_print hrunning rest).symm

/-- A table word of one code is that code. -/
theorem tableWordCodes_eight (w : Nat) : tableWordCodes 8 w = [BitVec.ofNat 8 w] := by
  simp [tableWordCodes]

/-- Settles O6: the port gives a PRINT of the one code, and the fetched word puts such a PRINT on the port. -/
theorem stepRunsTheDecodedCode : Obligations.StepRunsTheDecodedCode := by
  unfold Obligations.StepRunsTheDecodedCode
  have printed (s : State) (c : Byte) (rest : List Instr) (hp : s.pending = .print [c] :: rest) :
      step s = exec (decodeCode c).toInstr (s.withPending rest) := by
    rw [step_of_pending hp rfl, exec_print_singleton]
  refine ⟨printed, fun s w => printed (s.withFetchWord 8 w) (BitVec.ofNat 8 w) s.pending ?_⟩
  rw [State.withFetchWord, tableWordCodes_eight]
  rfl

/-! #### The cursor's range (R108) -/

theorem streamAction_inCursorRange (op : StreamOp) {s : State} (hg : s.geom.Valid)
    (hc : inCursorRange s.geom s.cursor) : inCursorRange (streamAction op s).geom (streamAction op s).cursor := by
  rw [streamAction_geom]
  exact streamAction_cursor_lt op s hg hc

theorem printStream_inCursorRange (codes : List Byte) {s : State} (hg : s.geom.Valid)
    (hc : inCursorRange s.geom s.cursor) : inCursorRange (printStream codes s).geom (printStream codes s).cursor := by
  rw [printStream_geom]
  exact (Reaches.printStream codes s hg hc).2

/-- Settles O29: a print stream runs actions alone, and each keeps the range. -/
theorem printAlwaysCompletes : Obligations.PrintAlwaysCompletes := by
  unfold Obligations.PrintAlwaysCompletes
  intro s codes hs
  obtain ⟨hgeom, hfault, hpending, -⟩ := printStream_keeps codes s
  exact ⟨_, exec_print hs codes, ⟨hgeom, hfault, hpending⟩, rfl, printStream_inCursorRange codes⟩

/-- An instruction that is no host command is a stream action's. -/
theorem exists_toInstr_of_not_command {i : Instr} (h : i.isCommand = false) : ∃ op : StreamOp, i = op.toInstr := by
  obtain ⟨hcommand, -⟩ | hop := command_without_code_or_toInstr i
  · cases h.symm.trans hcommand
  · exact hop

/-- Settles O54: an action and a stream of them keep the range, and a PRINT_AT that raises leaves the cursor. -/
theorem streamActionsAndPrintingKeepTheCursorInRange : Obligations.StreamActionsAndPrintingKeepTheCursorInRange := by
  unfold Obligations.StreamActionsAndPrintingKeepTheCursorInRange
  intro s hs hg
  have printAt_valid (pos : Int) (codes : List Byte) (hpos : inBufRange s.geom pos) :
      ∃ t, exec (.printAt pos codes) s = .next t ∧ t.geom = s.geom ∧ inCursorRange t.geom t.cursor := by
    have hlt : pos.toNat < s.geom.charsLen := by omega
    exact ⟨_, exec_printAt hs codes hpos, printStream_geom codes (s.withCursor pos.toNat),
      printStream_inCursorRange codes (s := s.withCursor pos.toNat) hg hlt⟩
  refine ⟨fun hc i hi => ?_, printAt_valid⟩
  obtain hstream | ⟨codes, rfl⟩ | ⟨pos, codes, rfl⟩ := hi
  · obtain ⟨op, rfl⟩ := exists_toInstr_of_not_command hstream
    exact ⟨_, exec_toInstr_running op hs, streamAction_geom op s, streamAction_inCursorRange op hg hc⟩
  · exact ⟨_, exec_print hs codes, printStream_geom codes s, printStream_inCursorRange codes hg hc⟩
  · by_cases hpos : inBufRange s.geom pos
    · exact printAt_valid pos codes hpos
    · exact ⟨_, exec_printAt_outside hs codes hpos, rfl, hc⟩

/-! #### A stream of GLYPH codes (R107, R110) -/

/-- The codes written one after another from cell `a` upwards. -/
def writeFrom : Nat → List Byte → State → State
  | _, [], s => s
  | a, c :: rest, s => writeFrom (a + 1) rest (update a c s)

@[simp] theorem writeFrom_geom (a : Nat) (codes : List Byte) (s : State) : (writeFrom a codes s).geom = s.geom := by
  induction codes generalizing a s with
  | nil => rfl
  | cons c rest ih => rw [writeFrom, ih, update_geom]

/-- The cells from `a` upwards hold the codes, and no other cell changes. -/
theorem readCell_writeFrom (a : Nat) (codes : List Byte) (s : State) (k : Nat) :
    readCell (writeFrom a codes s) k =
      if a ≤ k ∧ k < a + codes.length then codes.getD (k - a) Config.blank else readCell s k := by
  induction codes generalizing a s with
  | nil => rw [if_neg (by simp)]; rfl
  | cons c rest ih =>
    rw [writeFrom, ih, readCell_update, List.length_cons]
    rcases Nat.lt_trichotomy k a with hlt | rfl | hgt
    · rw [if_neg (by omega), if_neg (by omega), if_neg (by omega)]
    · rw [if_neg (by omega), if_pos rfl, if_pos (by omega), Nat.sub_self, List.getD_cons_zero]
    · rw [if_neg hgt.ne', show k - a = k - (a + 1) + 1 by omega, List.getD_cons_succ]
      exact if_congr (by omega) rfl rfl

theorem State.Sends.writeFrom {A : Event → Prop} (hA : ∀ pos old new, A (.cellChanged pos old new)) (a : Nat)
    (codes : List Byte) (s : State) : s.Sends A (writeFrom a codes s) := by
  induction codes generalizing a s with
  | nil => exact .of_events_eq rfl
  | cons c rest ih => exact (State.Sends.update hA a c s).trans (ih (a + 1) (Machine.update a c s))

theorem update_withCursor (i : Nat) (v : Byte) (s : State) (c : Nat) :
    update i v (s.withCursor c) = (update i v s).withCursor c := by
  unfold update
  rw [readCell_withCursor]
  by_cases h : readCell s i = v
  · rw [if_pos h, if_pos h]
  · rw [if_neg h, if_neg h]
    rfl

theorem writeFrom_withCursor (a : Nat) (codes : List Byte) (s : State) (c : Nat) :
    writeFrom a codes (s.withCursor c) = (writeFrom a codes s).withCursor c := by
  induction codes generalizing a s with
  | nil => rfl
  | cons d rest ih => rw [writeFrom, update_withCursor, ih]; rfl

/-- A GLYPH code before the last cell leaves the rest of the stream to be printed one cell further. -/
theorem printStream_glyph_cons {s : State} {c : Byte} (rest : List Byte) (hc : decodeCode c = .glyph c)
    (h : s.cursor + 1 < s.geom.charsLen) :
    printStream (c :: rest) s = printStream rest ((update s.cursor c s).withCursor (s.cursor + 1)) := by
  rw [printStream, streamStep, hc, streamAction, streamGlyph_of_not_last c h]

/-- GLYPH codes that end before the last cell are written, and the cursor is after them. -/
theorem printStream_glyphs_of_lt {s : State} {codes : List Byte} (hcodes : ∀ c ∈ codes, decodeCode c = .glyph c)
    (h : s.cursor + codes.length < s.geom.charsLen) :
    printStream codes s = (writeFrom s.cursor codes s).withCursor (s.cursor + codes.length) := by
  induction codes generalizing s with
  | nil => rfl
  | cons c rest ih =>
    obtain ⟨hc, hrest⟩ := List.forall_mem_cons.mp hcodes
    rw [List.length_cons] at h ⊢
    rw [printStream_glyph_cons rest hc (by omega), ih hrest, writeFrom_withCursor]
    · exact congrArg (writeFrom (s.cursor + 1) rest (update s.cursor c s)).withCursor (Nat.add_right_comm ..)
    · rw [State.withCursor_cursor, State.withCursor_geom, update_geom]
      omega

/-- GLYPH codes that end in the last cell are written, and one scroll follows. -/
theorem printStream_glyphs_of_eq {s : State} {codes : List Byte} (hcodes : ∀ c ∈ codes, decodeCode c = .glyph c)
    (hne : codes ≠ []) (h : s.cursor + codes.length = s.geom.charsLen) :
    printStream codes s = (scroll (writeFrom s.cursor codes s)).withCursor (lastRowStart s.geom) := by
  induction codes generalizing s with
  | nil => exact absurd rfl hne
  | cons c rest ih =>
    obtain ⟨hc, hrest⟩ := List.forall_mem_cons.mp hcodes
    rw [List.length_cons] at h
    by_cases hlast : rest = []
    · subst hlast
      rw [printStream, streamStep, hc]
      exact streamGlyph_of_last c h
    · have := List.length_pos_iff.mpr hlast
      rw [printStream_glyph_cons rest hc (by omega), ih hrest hlast, writeFrom_withCursor]
      · rw [State.withCursor_geom, update_geom]
        rfl
      · rw [State.withCursor_cursor, State.withCursor_geom, update_geom]
        omega

/-- Settles O33: from column 0 a row of codes ends at the next row's start; on the last row that is the buffer's end. -/
theorem printingAFullRowOfGlyphs : Obligations.PrintingAFullRowOfGlyphs := by
  unfold Obligations.PrintingAFullRowOfGlyphs
  intro s codes hs hg _ hcol hlen hcodes g r printed
  have hend : s.cursor + codes.length = rowStart g (r + 1) := by
    have hstart : rowStart g r + 0 = s.cursor := hcol ▸ rowStart_add_colOf g s.cursor
    rw [hlen, ← hstart, rowStart, rowStart, Nat.succ_mul]
    rfl
  have hprinted (k : Nat) : readCell (writeFrom s.cursor codes s) k = printed k := by
    rw [readCell_writeFrom, hlen]
    rfl
  obtain ⟨new, hsent, hnew⟩ := State.Sends.writeFrom (A := (· ≠ .scroll)) nofun s.cursor codes s
  refine ⟨_, new, exec_print hs codes, fun hmem => hnew _ hmem rfl, fun hr => ?notLast, fun hr => ?last⟩
  case notLast =>
    have hlt : rowStart g (r + 1) + 0 < g.charsLen := rowStart_add_lt (Nat.add_lt_of_lt_sub hr) hg.1
    rw [printStream_glyphs_of_lt hcodes (hend ▸ hlt)]
    exact ⟨hend, hprinted, hsent⟩
  case last =>
    have hne : codes ≠ [] := List.ne_nil_of_length_pos (hlen ▸ hg.1)
    rw [printStream_glyphs_of_eq hcodes hne (hend.trans (rowStart_succ_of_last hg hr))]
    refine ⟨rfl, fun k => ?_, congrArg (· ++ [Event.scroll]) hsent⟩
    rw [readCell_withReply, readCell_withCursor, readCell_scroll, writeFrom_geom, hprinted]
    rfl

end Sys2Proof.Machine

/-! ### The sub-pixels are independent (spec/42_semigraphics.md R133)

SET and RESET write one sub-pixel of one code and leave the other five, on a graphics cell and on a glyph cell alike.
Two pixels with the same cell and the same bit are the same pixel, so this is what POINT sees on the whole screen. -/

namespace Sys2Proof.Machine

/-! #### In one code -/

/-- A sub-pixel shows as the code that a pixel operation starts from has it: a glyph shows none, like `GFX_BASE`. -/
theorem getLsbD_graphicsBase_eq_pixelLit (old : Byte) {b : Nat} (hb : b < 6) :
    (graphicsBase old).getLsbD b = pixelLit old b := by
  have hne : b ≠ 7 := by omega
  rw [getLsbD_graphicsBase old (by omega), pixelLit, graphicsMode]
  cases old.getLsbD 7
  case false => exact beq_false_of_ne hne
  case true => rfl

/-- `f` gives sub-pixel `bit` of a code the value `v` and leaves the other sub-pixels as they show. -/
def WritesSubPixel (f : Byte → Byte) (bit : Nat) (v : Bool) : Prop :=
  ∀ (c : Byte) (b : Nat), b < 6 → pixelLit (f c) b = if b = bit then v else pixelLit c b

theorem pixelOn_writesSubPixel (bit : Nat) : WritesSubPixel (pixelOn · bit) bit true := by
  intro c b hb
  change pixelLit (pixelOn c bit) b = _
  rw [pixelLit, graphicsMode_pixelOn, Bool.true_and, pixelOn, BitVec.getLsbD_or,
    getLsbD_graphicsBase_eq_pixelLit c hb, getLsbD_bitMask bit (by omega)]
  by_cases h : b = bit <;> simp [h]

theorem pixelOff_writesSubPixel {bit : Nat} (hbit : bit < 6) : WritesSubPixel (pixelOff · bit) bit false := by
  intro c b hb
  have hb8 : b < 8 := by omega
  change pixelLit (pixelOff c bit) b = _
  rw [pixelLit, graphicsMode_pixelOff c hbit, Bool.true_and, pixelOff, BitVec.getLsbD_and, BitVec.getLsbD_not,
    getLsbD_graphicsBase_eq_pixelLit c hb, getLsbD_bitMask bit hb8]
  by_cases h : b = bit <;> simp [h, hb8]

/-! #### On the screen -/

/-- Whether pixel `(x, y)` shows in `s`. -/
def pixelShows (s : State) (x y : Int) : Bool := pixelLit (readCell s (pixelCell s.geom x y)) (pixelBit x y)

/-- POINT answers whether its pixel shows. -/
theorem exec_point_pixelShows {s : State} (hs : s.Running) {x y : Int} (h : inPixelRange s.geom x y) :
    exec (.point x y) s = .next { s with reply := some (.truth (pixelShows s x y)) } := exec_point hs h

/-- No two valid pixels have the same cell and the same bit (spec/20_memory.md R43). -/
theorem pixel_eq_of_cell_eq_of_bit_eq {g : Geometry} {x y x' y' : Int} (h : inPixelRange g x y)
    (h' : inPixelRange g x' y') (hcell : pixelCell g x' y' = pixelCell g x y) (hbit : pixelBit x' y' = pixelBit x y) :
    (x', y') = (x, y) := by
  obtain ⟨hx, hy⟩ := eq_pixelX_pixelY h
  obtain ⟨hx', hy'⟩ := eq_pixelX_pixelY h'
  rw [hcell, hbit] at hx' hy'
  exact Prod.ext (hx'.trans hx.symm) (hy'.trans hy.symm)

namespace CellWrite

variable {s t : State} {i : Instr} {x y : Int} {f : Byte → Byte} {v : Bool}

/-- The pixel that a command writes shows what it wrote. -/
theorem pixelShows_same (h : CellWrite s.geom i (pixelCell s.geom x y) f) (hf : WritesSubPixel f (pixelBit x y) v)
    (ht : exec i s = .next t) : pixelShows t x y = v := by
  obtain ⟨hcells, -, -, ⟨hgeom, -⟩, -⟩ := h.wroteCell ht
  rw [pixelShows, hgeom, hcells, if_pos rfl, hf _ _ (pixelBit_lt x y), if_pos rfl]

/-- Every other pixel shows as before: in another cell its code is untouched, in the same cell it has another bit. -/
theorem pixelShows_other (h : CellWrite s.geom i (pixelCell s.geom x y) f) (hf : WritesSubPixel f (pixelBit x y) v)
    (ht : exec i s = .next t) (hpixel : inPixelRange s.geom x y) {x' y' : Int} (hpixel' : inPixelRange s.geom x' y')
    (hne : (x', y') ≠ (x, y)) : pixelShows t x' y' = pixelShows s x' y' := by
  obtain ⟨hcells, -, -, ⟨hgeom, -⟩, -⟩ := h.wroteCell ht
  rw [pixelShows, hgeom, hcells, pixelShows]
  by_cases hcell : pixelCell s.geom x' y' = pixelCell s.geom x y
  · have hbit : pixelBit x' y' ≠ pixelBit x y := mt (pixel_eq_of_cell_eq_of_bit_eq hpixel hpixel' hcell) hne
    rw [if_pos hcell, hf _ _ (pixelBit_lt x' y'), if_neg hbit, hcell]
  · rw [if_neg hcell]

/-- After the write POINT of its pixel answers what it wrote, and POINT of another pixel what shows in `s`. -/
theorem exec_point_after (h : CellWrite s.geom i (pixelCell s.geom x y) f) (hf : WritesSubPixel f (pixelBit x y) v)
    (ht : exec i s = .next t) (hpixel : inPixelRange s.geom x y) :
    exec (.point x y) t = .next { t with reply := some (.truth v) } ∧
      ∀ x' y' : Int, inPixelRange s.geom x' y' → (x', y') ≠ (x, y) →
        exec (.point x' y') t = .next { t with reply := some (.truth (pixelShows s x' y')) } := by
  obtain ⟨-, -, -, ⟨hgeom, hfault, -⟩, -⟩ := h.wroteCell ht
  have hrunning : t.Running := hfault.trans (exec_next ht).1
  constructor
  · rw [exec_point_pixelShows hrunning (hgeom ▸ hpixel), h.pixelShows_same hf ht]
  · intro x' y' hpixel' hne
    rw [exec_point_pixelShows hrunning (hgeom ▸ hpixel'), h.pixelShows_other hf ht hpixel hpixel' hne]

end CellWrite

/-- Settles O42: SET and RESET each write one sub-pixel, and the shared answer is whether the other pixel shows in `s`. -/
theorem subPixelsAreIndependent : Obligations.SubPixelsAreIndependent := by
  unfold Obligations.SubPixelsAreIndependent
  intro s t u x y hs hpixel hset hreset
  obtain ⟨hset_same, hset_other⟩ :=
    (CellWrite.set hpixel).exec_point_after (pixelOn_writesSubPixel _) hset hpixel
  obtain ⟨hreset_same, hreset_other⟩ :=
    (CellWrite.reset hpixel).exec_point_after (pixelOff_writesSubPixel (pixelBit_lt x y)) hreset hpixel
  refine ⟨hset_same, hreset_same, fun x' y' hpixel' hne => ⟨pixelShows s x' y', ?_⟩⟩
  exact ⟨exec_point_pixelShows hs hpixel', hset_other x' y' hpixel' hne, hreset_other x' y' hpixel' hne⟩

end Sys2Proof.Machine

/-! ### CLS (spec/44_control.md)

After CLS the block is as constructed, behind the notifications of before (R151). A run commutes with such a history, so
what a program does after CLS is what it does from construction. -/

namespace Sys2Proof.Machine

/-! #### The command in a running block (R150) -/

@[simp] theorem clearScreen_cursor (s : State) : (clearScreen s).cursor = 0 := rfl

theorem clearScreen_keepsControl (s : State) : s.KeepsControl (clearScreen s) := ⟨rfl, rfl, rfl⟩

theorem exec_cls {s : State} (hs : s.Running) : exec .cls s = .next ((clearScreen s).withReply .done) :=
  exec_running .cls hs

/-- Settles O35: the command is `clearScreen` and the answer `done`. -/
theorem clsBlanksAndHomes : Obligations.ClsBlanksAndHomes := by
  unfold Obligations.ClsBlanksAndHomes
  intro s hs
  exact ⟨_, exec_cls hs, readCell_clearScreen s, clearScreen_cursor s, clearScreen_events s,
    clearScreen_keepsControl s, rfl⟩

/-- The Renderer blanks its whole surface for a `Clear`, whatever came before (spec/60_exceptions.md R170). -/
theorem Surface.replay_concat_clear (g : Geometry) (σ : Surface) (log : List Event) :
    Surface.replay g σ (log ++ [Event.clear]) = Surface.blank := Surface.replay_concat g σ log .clear

/-- Settles O36: the last notification is a `Clear`, which blanks every surface, and every cell of the buffer is blank. -/
theorem clsMakesAnySurfaceShowTheBuffer : Obligations.ClsMakesAnySurfaceShowTheBuffer := by
  unfold Obligations.ClsMakesAnySurfaceShowTheBuffer
  intro s t before h k
  have ht : t = (clearScreen s).withReply .done :=
    Host.Outcome.next.inj (h.symm.trans (exec_cls (exec_next h).1))
  rw [ht, State.withReply_events, clearScreen_events, Surface.replay_concat_clear, readCell_withReply,
    readCell_clearScreen]
  rfl

/-! #### What CLS forgets (R151) -/

/-- The state right after construction with geometry `g`, `program` pending, and a command just returned. -/
def freshWithProgram (g : Geometry) (program : List Instr) : State :=
  ((State.fresh g).withPending program).withReply .done

/-- Cells, cursor and latch are those of construction; the notifications alone tell of the state before. -/
theorem clearScreen_withReply_eq_behind {s : State} (hs : s.Running) :
    (clearScreen s).withReply .done = (freshWithProgram s.geom s.pending).behind (s.events ++ [Event.clear]) :=
  State.eq_of_fields _ _ rfl rfl rfl hs (List.append_nil _).symm rfl rfl

/-- A history of notifications before the start of a run comes out as a history before its end. -/
theorem runSteps_behind (log : List Event) (n : Nat) (s : State) :
    runSteps n (s.behind log) = outcomeBehind log (runSteps n s) := by
  induction n generalizing s with
  | zero => rfl
  | succ n ih =>
    rw [runSteps_succ, runSteps_succ, step_behind]
    cases step s with
    | next t => exact ih t
    | fault r => rfl
    | refused r => rfl

/-- A program that starts with CLS runs on as from construction, behind the notifications up to the `Clear`. -/
theorem runSteps_cls {s : State} {program : List Instr} (hs : s.Running) (hp : s.pending = .cls :: program) (n : Nat) :
    runSteps (n + 1) s =
      outcomeBehind (s.events ++ [Event.clear]) (runSteps n (freshWithProgram s.geom program)) := by
  have hrest : (s.withPending program).Running := hs
  have hstep : step s = .next ((freshWithProgram s.geom program).behind (s.events ++ [Event.clear])) := by
    rw [step_of_pending hp rfl, exec_cls hrest, clearScreen_withReply_eq_behind hrest]
    rfl
  rw [runSteps_succ, hstep]
  exact runSteps_behind _ n _

/-- Settles O37: both runs are the one run from construction, each behind its own history. -/
theorem programsThatStartWithClsForgetTheState : Obligations.ProgramsThatStartWithClsForgetTheState := by
  unfold Obligations.ProgramsThatStartWithClsForgetTheState
  intro s₁ s₂ program hs₁ hs₂ hgeom hp₁ hp₂ n
  rw [runSteps_cls hs₁ hp₁, runSteps_cls hs₂ hp₂, hgeom]
  cases runSteps n (freshWithProgram s₂.geom program) with
  | next t =>
    exact ⟨t.behind_sameButLog _ _, t.events, List.append_assoc s₁.events [Event.clear] t.events,
      List.append_assoc s₂.events [Event.clear] t.events⟩
  | fault r => cases r
  | refused r => rfl

end Sys2Proof.Machine

/-! ### Raising OutOfRange (spec/60_exceptions.md)

In a running block an instruction completes with its effect, or raises the record of its own operands, which are then
out of their domain: `exec_completes_or_raises`. No effect touches the fault latch, so only raising leaves the block
faulted. -/

namespace Sys2Proof.Machine

/-- `x` is the fault record of the range-checked command `i`: its mnemonic and its checked operands (R163). -/
inductive RecordedAs : Instr → OutOfRange → Prop
  | bufGet (pos : Int) : RecordedAs (.bufGet pos) (.bufGet pos)
  | bufSet (pos : Int) (v : Byte) : RecordedAs (.bufSet pos v) (.bufSet pos)
  | printAt (pos : Int) (codes : List Byte) : RecordedAs (.printAt pos codes) (.printAt pos)
  | tab (n : Int) : RecordedAs (.tab n) (.tab n)
  | set (x y : Int) : RecordedAs (.set x y) (.set x y)
  | reset (x y : Int) : RecordedAs (.reset x y) (.reset x y)
  | point (x y : Int) : RecordedAs (.point x y) (.point x y)

/-! #### The domains of the checked operands (R162) -/

theorem not_inBufRange_iff {g : Geometry} {pos : Int} : ¬ inBufRange g pos ↔ pos < 0 ∨ (g.charsLen : Int) ≤ pos := by
  omega

theorem not_inTabRange_iff {n : Int} : ¬ inTabRange n ↔ n < 0 ∨ 64 ≤ n := by
  unfold inTabRange Config.tabArgLimit
  omega

theorem not_inPixelRange_iff {g : Geometry} {x y : Int} :
    ¬ inPixelRange g x y ↔ x < 0 ∨ 2 * (g.lineWidth : Int) ≤ x ∨ y < 0 ∨ 3 * (g.lineCount : Int) ≤ y := by
  unfold inPixelRange Geometry.pixW Geometry.pixH
  omega

/-! #### An operand out of its domain raises (R161) -/

/-- A range-checked command whose record is genuine raises that record. -/
theorem exec_of_genuine {i : Instr} {x : OutOfRange} {s : State} (hs : s.Running) (hi : RecordedAs i x)
    (hx : x.Genuine s.geom) : exec i s = raiseOutOfRange x s := by
  rw [exec_running i hs]
  cases hi with
  | bufGet | bufSet | printAt | tab | set | reset | point => exact if_neg hx

/-- Settles O50: outside its domain each operand makes its command's record genuine. -/
theorem rangeViolationsLatchTheFault : Obligations.RangeViolationsLatchTheFault := by
  unfold Obligations.RangeViolationsLatchTheFault
  intro s hs
  refine ⟨fun pos hout => ?position, fun n hout => ?tab, fun x y hout => ?pixel⟩
  case position =>
    have hpos : ¬ inBufRange s.geom pos := not_inBufRange_iff.mpr hout
    exact ⟨exec_of_genuine hs (.bufGet pos) hpos, fun v => exec_of_genuine hs (.bufSet pos v) hpos,
      fun codes => exec_of_genuine hs (.printAt pos codes) hpos⟩
  case tab =>
    exact exec_of_genuine hs (.tab n) (not_inTabRange_iff.mpr hout)
  case pixel =>
    have hpixel : ¬ inPixelRange s.geom x y := not_inPixelRange_iff.mpr hout
    exact ⟨exec_of_genuine hs (.set x y) hpixel, exec_of_genuine hs (.reset x y) hpixel,
      exec_of_genuine hs (.point x y) hpixel⟩

/-! #### What an instruction can do in a running block (R160, R166) -/

/-- An instruction completes with its effect, or raises its own record, which is genuine. -/
theorem exec_completes_or_raises (i : Instr) {s : State} (hs : s.Running) :
    (∃ r, exec i s = complete r (effectOf i s)) ∨
      ∃ x, RecordedAs i x ∧ x.Genuine s.geom ∧ exec i s = raiseOutOfRange x s := by
  have checked {p : Prop} [Decidable p] {r : Reply} {x : OutOfRange}
      (hbody : acceptedBody i s = if p then complete r (effectOf i s) else raiseOutOfRange x s)
      (hx : ¬ p → x.Genuine s.geom) (hi : RecordedAs i x) :
      (∃ r, exec i s = complete r (effectOf i s)) ∨
        ∃ x, RecordedAs i x ∧ x.Genuine s.geom ∧ exec i s = raiseOutOfRange x s := by
    by_cases hp : p
    · exact .inl ⟨r, by rw [exec_running i hs, hbody, if_pos hp]⟩
    · exact .inr ⟨x, hi, hx hp, exec_of_genuine hs hi (hx hp)⟩
  cases i using instr_cases_by_kind with
  | stream op => exact .inl ⟨.done, by rw [exec_running _ hs, acceptedBody_toInstr, effectOf_toInstr]⟩
  | cls | print | peek | poke => exact .inl ⟨_, exec_running _ hs⟩
  | printAt | tab | set | reset | point | bufGet | bufSet => exact checked rfl id (by constructor)

theorem update_keepsControl (i : Nat) (v : Byte) (s : State) : s.KeepsControl (update i v s) :=
  ⟨update_geom i v s, update_fault i v s, update_pending i v s⟩

theorem printStream_keepsControl (codes : List Byte) (s : State) : s.KeepsControl (printStream codes s) :=
  ⟨printStream_geom codes s, printStream_fault codes s, printStream_pending codes s⟩

/-- No effect touches the configuration, the fault latch or the port. -/
theorem effectOf_keepsControl (i : Instr) (s : State) : s.KeepsControl (effectOf i s) := by
  cases i using instr_cases_by_kind with
  | stream op =>
    rw [effectOf_toInstr]
    exact ⟨streamAction_geom op s, streamAction_fault op s, streamAction_pending op s⟩
  | cls => exact clearScreen_keepsControl s
  | print codes => exact printStream_keepsControl codes s
  | printAt pos codes => exact printStream_keepsControl codes (s.withCursor pos.toNat)
  | poke addr v => exact (Reaches.memWrite addr v s).keepsControl.1
  | set | reset | bufSet => exact update_keepsControl ..
  | tab | point | peek | bufGet => exact ⟨rfl, rfl, rfl⟩

/-- Settles O52: completing and raising both answer a next state, and neither touches the geometry or the port. -/
theorem everyInstructionAnswersInARunningBlock : Obligations.EveryInstructionAnswersInARunningBlock := by
  unfold Obligations.EveryInstructionAnswersInARunningBlock
  intro i s hs
  obtain ⟨r, hexec⟩ | ⟨x, -, -, hexec⟩ := exec_completes_or_raises i hs
  · obtain ⟨hgeom, -, hpending⟩ := effectOf_keepsControl i s
    exact ⟨_, hexec, hgeom, hpending⟩
  · exact ⟨_, hexec, rfl, rfl⟩

/-! #### Nothing else raises (R160, R162) -/

/-- An instruction that leaves a running block faulted has raised its own genuine record. -/
theorem exec_faulted_raises {i : Instr} {s t : State} {x : OutOfRange} (h : exec i s = .next t)
    (ht : t.fault = some x) :
    RecordedAs i x ∧ x.Genuine s.geom ∧ t = (s.withFault x).withReply (.outOfRange x) := by
  have hs : s.Running := (exec_next h).1
  obtain ⟨r, hexec⟩ | ⟨x', hi, hx, hexec⟩ := exec_completes_or_raises i hs
  · obtain ⟨-, hfault, -⟩ := effectOf_keepsControl i s
    rw [complete_next.mp (hexec.symm.trans h), State.withReply_fault, hfault, hs] at ht
    cases ht
  · have hraised := raiseOutOfRange_next.mp (hexec.symm.trans h)
    obtain rfl : x' = x := by
      rw [hraised] at ht
      exact Option.some.inj ht
    exact ⟨hi, hx, hraised⟩

/-- Settles O51: `exec_faulted_raises`, and the seven commands that have a record. -/
theorem onlyRangeViolationsRaise : Obligations.OnlyRangeViolationsRaise := by
  unfold Obligations.OnlyRangeViolationsRaise
  intro i s t x _ h ht
  obtain ⟨hi, hx, hraised⟩ := exec_faulted_raises h ht
  refine ⟨hraised, hx, ?_⟩
  cases hi with
  | bufGet pos => exact .inl ⟨pos, rfl, rfl⟩
  | bufSet pos v => exact .inr (.inl ⟨pos, v, rfl, rfl⟩)
  | printAt pos codes => exact .inr (.inr (.inl ⟨pos, codes, rfl, rfl⟩))
  | tab n => exact .inr (.inr (.inr (.inl ⟨n, rfl, rfl⟩)))
  | set x y => exact .inr (.inr (.inr (.inr (.inl ⟨x, y, rfl, rfl⟩))))
  | reset x y => exact .inr (.inr (.inr (.inr (.inr (.inl ⟨x, y, rfl, rfl⟩)))))
  | point x y => exact .inr (.inr (.inr (.inr (.inr (.inr ⟨x, y, rfl, rfl⟩)))))

/-! #### Idle and ill-formed steps (R175, R64) -/

/-- With nothing pending the block holds its state. -/
theorem step_of_nothing_pending {s : State} (hp : s.pending = []) : step s = .next s := by
  have hfetch : fetch s = none := by rw [fetch, hp]
  rw [step, hfetch]

/-- A term that no code stands for, at the front of the port, is refused before it runs. -/
theorem step_of_illFormed {s : State} {i : Instr} {rest : List Instr} (hp : s.pending = i :: rest)
    (hw : i.wellFormed = false) : step s = .refused .illFormed := by
  simp only [step, fetch_of_pending hp, hw, Bool.false_eq_true, if_false]

/-- Settles O7: the port is empty, or its first term fails the well-formedness check. -/
theorem stepIdlesAndRefusesIllFormedTerms : Obligations.StepIdlesAndRefusesIllFormedTerms := by
  unfold Obligations.StepIdlesAndRefusesIllFormedTerms
  exact fun s => ⟨step_of_nothing_pending, fun i rest => step_of_illFormed⟩

end Sys2Proof.Machine

/-! ### The work of a print stream (spec/70_reset_and_hazards.md section 4)

A stream action sends at most a notification for each cell it blanks or writes and one for a scroll. `State.SendsAtMost`
counts them, operation by operation, and a print stream adds up the counts of its codes. -/

namespace Sys2Proof.Machine

/-- `t` has at most `n` notifications more than `s`. -/
def State.SendsAtMost (n : Nat) (s t : State) : Prop := t.events.length ≤ s.events.length + n

/-- Blanking `n` cells sends at most `n` notifications: a cell that is blank already sends none. -/
theorem blankEvents_length_le (s : State) (a n : Nat) : (blankEvents s a n).length ≤ n := by
  unfold blankEvents
  rw [List.length_map]
  exact (List.length_filter_le _ _).trans_eq List.length_range'

namespace State.SendsAtMost

variable {m n : Nat} {s t u : State}

theorem of_events_eq (h : t.events = s.events) : s.SendsAtMost n t := by
  rw [SendsAtMost, h]
  exact Nat.le_add_right ..

theorem of_append {new : List Event} (h : t.events = s.events ++ new) (hnew : new.length ≤ n) : s.SendsAtMost n t := by
  rw [SendsAtMost, h, List.length_append]
  exact Nat.add_le_add_left hnew _

theorem mono (h : s.SendsAtMost m t) (hmn : m ≤ n) : s.SendsAtMost n t :=
  Nat.le_trans h (Nat.add_le_add_left hmn _)

theorem trans (hst : s.SendsAtMost m t) (htu : t.SendsAtMost n u) : s.SendsAtMost (m + n) u := by
  unfold SendsAtMost at *
  omega

theorem update (i : Nat) (v : Byte) (s : State) : s.SendsAtMost 1 (update i v s) := by
  refine of_append (update_events i v s) ?_
  split
  · exact Nat.zero_le 1
  · exact Nat.le_refl 1

theorem blankRange (a b : Nat) (s : State) : s.SendsAtMost (b - a) (blankRange a b s) :=
  of_append (blankRange_events a b s) (blankEvents_length_le s a (b - a))

theorem scroll (s : State) : s.SendsAtMost 1 (scroll s) := of_append (scroll_events s) (Nat.le_refl 1)

/-- Blanking to the end of the cursor's row touches at most a row (spec/00_scope.md R11). -/
theorem blankRow (s : State) (hg : s.geom.Valid) :
    s.SendsAtMost s.geom.lineWidth (Machine.blankRange s.cursor (rowStart s.geom (rowOf s.geom s.cursor + 1)) s) := by
  obtain ⟨-, hend⟩ := cursor_lt_rowEnd s.cursor hg
  exact (blankRange _ _ s).mono (Nat.sub_le_iff_le_add'.mpr hend)

/-- A new line blanks at most a row, and may scroll (spec/41_cursor_fsm.md R95). -/
theorem newLine (s : State) (hg : s.geom.Valid) : s.SendsAtMost (s.geom.lineWidth + 1) (newLine s) := by
  unfold Machine.newLine
  simp only
  split
  · exact (blankRow s hg).trans (of_events_eq rfl)
  · exact (blankRow s hg).trans (scroll _)

/-- A glyph writes one cell, and may scroll (spec/41_cursor_fsm.md R107). -/
theorem streamGlyph (c : Byte) (s : State) : s.SendsAtMost (1 + 1) (streamGlyph c s) := by
  unfold Machine.streamGlyph
  simp only
  split
  · exact (update s.cursor c s).trans (scroll _)
  · exact (update s.cursor c s).trans (of_events_eq rfl)

/-- One stream code sends at most `CHARS_LEN + LINE_WIDTH` notifications (spec/70_reset_and_hazards.md R189): EOS may
blank the whole buffer and a new line a row, and where there is a scroll as well a cell of the buffer counts for it. -/
theorem streamAction (op : StreamOp) (s : State) (hg : s.geom.Valid) :
    s.SendsAtMost (s.geom.charsLen + s.geom.lineWidth) (streamAction op s) := by
  have hcells : 1 ≤ s.geom.charsLen := charsLen_pos hg
  have hcolumns : 1 ≤ s.geom.lineWidth := hg.1
  cases op with
  | bs => exact (update _ _ (s.withCursor _)).mono (Nat.le_add_right_of_le hcells)
  | lf => exact (newLine s hg).mono (by omega)
  | cr => exact (newLine s hg).mono (by omega)
  | eol => exact (blankRow s hg).mono (Nat.le_add_left ..)
  | eos => exact (blankRange _ _ s).mono (by omega)
  | glyph c => exact (streamGlyph c s).mono (Nat.add_le_add hcells hcolumns)
  | tabc n =>
    simp only [Machine.streamAction, streamTabc]
    split <;> exact of_events_eq rfl
  | left | right | down | up | home | sol => exact of_events_eq rfl

/-- The bound of one code, once for each code of the stream; no code changes the geometry it is read from. -/
theorem printStream (codes : List Byte) (s : State) (hg : s.geom.Valid) :
    s.SendsAtMost (codes.length * (s.geom.charsLen + s.geom.lineWidth)) (printStream codes s) := by
  induction codes generalizing s with
  | nil => exact of_events_eq rfl
  | cons c rest ih =>
    have hgeom : (streamStep c s).geom = s.geom := streamAction_geom (decodeCode c) s
    have hfirst : s.SendsAtMost _ (streamStep c s) := streamAction (decodeCode c) s hg
    have hrest := ih (streamStep c s) (hgeom ▸ hg)
    rw [hgeom] at hrest
    rw [List.length_cons, Nat.succ_mul, Nat.add_comm]
    exact hfirst.trans hrest

end State.SendsAtMost

/-- Settles O34: PRINT is its print stream and an answer; where the cursor stands does not matter to the bound. -/
theorem printSendsBoundedlyManyNotifications : Obligations.PrintSendsBoundedlyManyNotifications := by
  unfold Obligations.PrintSendsBoundedlyManyNotifications
  intro s t codes hg _ h
  have ht : t = (printStream codes s).withReply .done := complete_next.mp (exec_next h).2
  rw [ht, State.withReply_events]
  exact State.SendsAtMost.printStream codes s hg

end Sys2Proof.Machine
